-- ==== Sys2Proof/Word.lean ====
section
/-! DEFINITION. The plain bit-vector types of the engine (spec/00_scope.md R9 fixes the widths, R12 the bit numbering:
bit 0 is the least significant bit). -/

namespace Sys2Proof

/-- A 64-bit word: a table word, a command word `CMD`, a data operand `DATA`, a result (R9, R56, R57, R60). -/
abbrev Word := BitVec 64

/-- A 32-bit element hash, unsigned (R9, R58). -/
abbrev Hash := BitVec 32

/-- A 4-bit saturating counter (R9, R40). -/
abbrev Counter := BitVec 4

/-- A byte on a byte-addressed host bus (R43); the engine itself has no bytes. -/
abbrev Byte := BitVec 8

/-- A row: one of the four hash-derived counter positions of an element (R16). -/
abbrev Row := Fin 4

end Sys2Proof
end

