-- ==== Sys2Proof/Config.lean ====
section
/-! DEFINITION. The implementation parameters of one engine instance (spec/00_scope.md R9). They are the arguments a
model takes: a `Params` value stands in `State.params`, no step changes it, and the statements hold for every value of
it. Which values an instance may have and the default instance are in Sys2Proof/Machine/Instance.lean. -/

namespace Sys2Proof

/-- How a byte-addressed host bus orders the eight bytes of `DATA` and `RESULT`: the named parameter `HOST_BYTE_ORDER`,
OPEN (R43, D32). The engine never reads it; the bus adapter of Machine/HostBus.lean does. -/
inductive ByteOrder where
  | littleEndian
  | bigEndian
  deriving DecidableEq, Repr

/-- The parameters of R9: fixed for an instance, not programmable at run time, and not state (R20). -/
structure Params where
  /-- `SEED[0]`, the multiplier constant of row 0. -/
  seed0 : Word
  /-- `SEED[1]`. -/
  seed1 : Word
  /-- `SEED[2]`. -/
  seed2 : Word
  /-- `SEED[3]`. -/
  seed3 : Word
  /-- `SAMPLE_FACTOR`: the sampling size per table word. -/
  sampleFactor : Nat
  /-- `LOG2_LMAX`: log2 of the largest table length the instance holds. -/
  log2LMax : Nat
  /-- `DEBUG_CMDS = present`. -/
  debugCmds : Bool
  /-- `HOST_BYTE_ORDER` (R43). -/
  hostByteOrder : ByteOrder
  deriving DecidableEq, Repr

end Sys2Proof
end

