-- ==== Sys2Proof/Machine/Instance.lean ====
section
/-! DEFINITION. Which parameter values make an instance (spec/00_scope.md R9, spec/40_addressing.md R83), what is derived
from them (R11), and the default instance that State.reset stands on (R10, assumption 1). -/

namespace Sys2Proof

/-- `SEED[r]` (R9). -/
def Params.seed (p : Params) (r : Row) : Word :=
  match r with
  | 0 => p.seed0
  | 1 => p.seed1
  | 2 => p.seed2
  | 3 => p.seed3

/-- `L_MAX = 2^LOG2_LMAX`, the words of the physical store (R11, R21). -/
def Params.lMax (p : Params) : Nat := 2 ^ p.log2LMax

/-- Each `SEED[r]` is odd (R83). -/
def Params.seedsOdd (p : Params) : Bool :=
  p.seed0.getLsbD 0 && p.seed1.getLsbD 0 && p.seed2.getLsbD 0 && p.seed3.getLsbD 0

/-- `SAMPLE_FACTOR` is positive, `LOG2_LMAX ≤ 31` and `SAMPLE_FACTOR × 2^LOG2_LMAX ≤ 2^32 − 1` (R9). -/
def Params.sizesFit (p : Params) : Bool :=
  decide (1 ≤ p.sampleFactor) && decide (p.log2LMax ≤ 31) && decide (p.sampleFactor * p.lMax ≤ 4294967295)

/-- The parameter values satisfy every constraint of R9 and R83. -/
def Params.wf (p : Params) : Bool := p.seedsOdd && p.sizesFit

/-- The default instance. `SAMPLE_FACTOR = 10` is the document's behaviour and `DEBUG_CMDS = present` the spec's default
(R9). PRESUMED: the four seeds, which R10 gives from general knowledge. DESIGN CHOICE: `LOG2_LMAX = 20`, the value the
test vectors of spec/95_test_vectors.md use, and little-endian for the bus. Assumption 1: the statements hold for every
instance, but for one that says it is about these seeds. -/
def Params.default : Params where
  seed0 := 0xc3a5c85c97cb3127
  seed1 := 0xb492b66fbe98f273
  seed2 := 0x9ae16a3b2f90404f
  seed3 := 0xcbf29ce484222325
  sampleFactor := 10
  log2LMax := 20
  debugCmds := true
  hostByteOrder := .littleEndian

end Sys2Proof
end

