-- ==== Sys2Proof/Syntax.lean ====
section
/-! DEFINITION. The command set: one constructor per row of spec/opcode_table.json (spec/30_encoding.md R59), and the
two 64-bit values a host sends for one command (R55). -/

namespace Sys2Proof

/-- A command with its operands assembled (R58). The range each operand must have is checked in WellFormed.lean. -/
inductive Instr where
  /-- CONFIG `n`: `n` is the requested capacity, a signed 32-bit integer (R58, R125). -/
  | config (n : Int)
  /-- RECORD `h` (R90). -/
  | record (h : Hash)
  /-- QUERY `h` (R115). -/
  | query (h : Hash)
  /-- HAS `h` (R117). -/
  | has (h : Hash)
  /-- AGE (R108), a debug command. -/
  | age
  /-- RD_WORD `i`: `i` is a table word index, an unsigned 32-bit integer (R137), a debug command. -/
  | rdword (i : Nat)
  /-- WR_WORD `i, d`: `d` is the `DATA` operand (R138), a debug command. -/
  | wrword (i : Nat) (d : Word)
  /-- RD_STAT (R140), a debug command. -/
  | rdstat
  deriving DecidableEq, Repr

/-- What a host sends for one command: the command word `CMD` and the data operand `DATA` beside it (R55 to R57). -/
structure Command where
  cmd  : Word
  data : Word
  deriving DecidableEq, Repr

end Sys2Proof
end

