-- ==== Sys2Proof/WellFormed.lean ====
section
/-! DEFINITION. Which commands an instance has: the operand ranges of spec/30_encoding.md R58 and the presence of the
debug class (R65). -/

namespace Sys2Proof

/-- `n` fits the signed 32-bit capacity operand (R58). -/
def capacityFits (n : Int) : Bool := decide (-2147483648 ≤ n) && decide (n ≤ 2147483647)

/-- `i` fits the unsigned 32-bit word index operand (R58). -/
def indexFits (i : Nat) : Bool := decide (i ≤ 4294967295)

/-- The command is one that the instance `p` has, with every operand in the range its field holds (R58, R65). -/
def Instr.wf (p : Params) : Instr → Bool
  | .config n => capacityFits n
  | .record _ => true
  | .query _ => true
  | .has _ => true
  | .age => p.debugCmds
  | .rdword i => p.debugCmds && indexFits i
  | .wrword i _ => p.debugCmds && indexFits i
  | .rdstat => p.debugCmds

end Sys2Proof
end

