-- ==== Sys2Proof/Decode.lean ====
section
/-! DEFINITION. The decoder of spec/30_encoding.md R61, total on every pair (`CMD`, `DATA`), each refusal with its reason,
and the encoder written from the same tables (R56, R58, R59). -/

namespace Sys2Proof

/-- `CMD[3:0]`, the opcode (R56). -/
def Command.opc (c : Command) : BitVec 4 := c.cmd.extractLsb' 0 4

/-- `CMD[31:4]`, reserved (R56). -/
def Command.rsv (c : Command) : BitVec 28 := c.cmd.extractLsb' 4 28

/-- `CMD[63:32]`, the argument (R56). -/
def Command.arg (c : Command) : BitVec 32 := c.cmd.extractLsb' 32 32

/-- Why a command word is ILLEGAL: the four clauses of R151. -/
inductive IllegalReason where
  /-- A bit of `CMD[31:4]` is set (R62). -/
  | reservedBits
  /-- Opcode `0x0` or `0x9` to `0xF` (R64). -/
  | reservedOpcode
  /-- AGE or RD_STAT with `ARG ≠ 0` (R63). -/
  | argumentNotZero
  /-- Opcode `0x5` to `0x8` while `DEBUG_CMDS = absent` (R65). -/
  | debugAbsent
  deriving DecidableEq, Repr

/-- What a command decodes as: exactly one command of R59 with its operands, or ILLEGAL (R61). -/
inductive Decoded where
  | instr (i : Instr)
  | illegal (why : IllegalReason)
  deriving DecidableEq, Repr

/-- A debug command exists only when `DEBUG_CMDS = present` (R65). -/
def ifDebug (p : Params) (d : Decoded) : Decoded :=
  if p.debugCmds then d else .illegal .debugAbsent

/-- AGE and RD_STAT take no argument (R63). -/
def ifNoArgument (arg : BitVec 32) (i : Instr) : Decoded :=
  if arg = 0 then .instr i else .illegal .argumentNotZero

/-- The decoder of R61 for the instance `p`. `DATA` is only the operand of WR_WORD (R57). -/
def decode (p : Params) (c : Command) : Decoded :=
  if c.rsv ≠ 0 then .illegal .reservedBits
  else match c.opc.toNat with
    | 1 => .instr (.config c.arg.toInt)
    | 2 => .instr (.record c.arg)
    | 3 => .instr (.query c.arg)
    | 4 => .instr (.has c.arg)
    | 5 => ifDebug p (ifNoArgument c.arg .age)
    | 6 => ifDebug p (.instr (.rdword c.arg.toNat))
    | 7 => ifDebug p (.instr (.wrword c.arg.toNat c.data))
    | 8 => ifDebug p (ifNoArgument c.arg .rdstat)
    | _ => .illegal .reservedOpcode

/-- The command word of R56 with `RSV = 0`: `ARG` in the high half, `OPC` in the low four bits. -/
def commandWord (arg : BitVec 32) (opc : BitVec 4) : Word := arg ++ 0#28 ++ opc

/-- `OPC` of a command (R59). -/
def Instr.opcode : Instr → BitVec 4
  | .config _ => 0x1
  | .record _ => 0x2
  | .query _ => 0x3
  | .has _ => 0x4
  | .age => 0x5
  | .rdword _ => 0x6
  | .wrword _ _ => 0x7
  | .rdstat => 0x8

/-- `ARG` of a command (R58): a capacity is `n mod 2^32`, a hash or an index stands whole. -/
def Instr.argument : Instr → BitVec 32
  | .config n => BitVec.ofInt 32 n
  | .record h => h
  | .query h => h
  | .has h => h
  | .age => 0
  | .rdword i => BitVec.ofNat 32 i
  | .wrword i _ => BitVec.ofNat 32 i
  | .rdstat => 0

/-- `DATA` of a command: the word WR_WORD writes, 0 for every other command (R57, R68). -/
def Instr.dataOperand : Instr → Word
  | .config _ => 0
  | .record _ => 0
  | .query _ => 0
  | .has _ => 0
  | .age => 0
  | .rdword _ => 0
  | .wrword _ d => d
  | .rdstat => 0

/-- The encoder: the command word and data operand that stand for a command (R56 to R59). -/
def encode (i : Instr) : Command := ⟨commandWord i.argument i.opcode, i.dataOperand⟩

/-- The command whose bits are `w`, numbered as spec/opcode_table.json numbers them: `CMD` is bits 63..0, `DATA` the bits
above it, and every bit from `nbits` up is 0. -/
def tableCommand (nbits w : Nat) : Command :=
  ⟨BitVec.ofNat 64 (w % 2 ^ nbits), BitVec.ofNat 64 (w % 2 ^ nbits / 2 ^ 64)⟩

/-- The command that the decoder of the default instance reads from an opcode-table word. -/
def decodeTableWord (nbits w : Nat) : Option Instr :=
  match decode Params.default (tableCommand nbits w) with
  | .instr i => some i
  | .illegal _ => none

end Sys2Proof
end

