-- ==== Sys2Proof/Machine/State.lean ====
section
/-! DEFINITION. The state of the engine (spec/10_state.md R20, R33), the response it gives (spec/30_encoding.md R60,
spec/60_exceptions.md R150), the host's inputs (R165), and the state after reset (R27). -/

namespace Sys2Proof.Machine

/-- The `STATUS` values of R150. Their 4-bit codes are in Machine/Flags.lean. -/
inductive Status where
  /-- `0x0`: the command completed. -/
  | ok
  /-- `0x1`: CONFIG with `n ≤ 0` (R127). -/
  | errInvalidCapacity
  /-- `0x2`: CONFIG with `next_pow2(n) > L_MAX` (R128). -/
  | errCapacityTooLarge
  /-- `0x3`: a table command while `CONFIGURED = 0` (R155). -/
  | errNotConfigured
  /-- `0x4`: the command word decodes as ILLEGAL (R151). -/
  | errIllegal
  /-- `0x5`: a word index `i ≥ L` (R136). -/
  | errIndexRange
  deriving DecidableEq, Repr

/-- A response: `STATUS` and the 64-bit `RESULT` (R60). -/
structure Response where
  status : Status
  result : Word
  deriving DecidableEq, Repr

/-- What the host can do to the engine (the table of R165): issue a command, or apply the reset signal. -/
inductive HostInput where
  /-- One command word and its data operand. -/
  | issue (c : Command)
  /-- The reset signal (R170). `inProgress` is the command that was running when it came, which is abandoned (R171). -/
  | reset (inProgress : Option Command)
  deriving DecidableEq, Repr

/-- Why the machine would stop with a fault. No command and no step faults: the engine has no traps (R157) and reports
every error in its response (R152). -/
inductive Fault where
  /-- A recorded response holds a status code `0x6` to `0xF`, which no engine returns (R150, U9). Raised by
  `readStatus` alone, never by a step: safe. -/
  | unknownStatus (code : BitVec 4)
  deriving DecidableEq, Repr

/-- Why there is no meaning. -/
inductive Refusal where
  /-- A command without a meaning, named in an arm of exec; no arm has it now. Safe. -/
  | notModelled (mnemonic : String)
  /-- An instance with an even seed is refused at instantiation (R83, D29). Raised by `instantiate`: safe. -/
  | evenSeed
  /-- An instance whose `SAMPLE_FACTOR` or `LOG2_LMAX` breaks a constraint of R9. Raised by `instantiate`: safe. -/
  | parametersOutOfRange
  deriving DecidableEq, Repr

/-- The counter table as (word index, word) pairs in one canonical form (`Memory.wf`): indices strictly rising, no entry 0.
The table is indexed by word, never by byte (R14, R43, R52), so the cells are words: assumption 2. -/
abbrev Memory := List (Nat × Word)

/-- The state. `table`, `configured`, `log2l` and `size` are exactly the architectural state of R20; `params` are the
instance's parameters (R9), which no step changes; `inbox` and `response` are the model's own two ends of the command
interface (assumption 3). -/
structure State where
  /-- The parameters of the instance (R9). -/
  params : Params
  /-- The counter table `T` (R21). -/
  table : Memory
  /-- `CONFIGURED` (R22). -/
  configured : Bool
  /-- `LOG2L` (R23). -/
  log2l : BitVec 5
  /-- `SIZE` (R24). -/
  size : BitVec 32
  /-- What the host sends, oldest first; a step takes the first (R46, R177). -/
  inbox : List HostInput
  /-- The response to the last command taken, none since reset (R60). -/
  response : Option Response
  deriving DecidableEq, Repr

/-- The state after reset of the instance `p` (R27, R170): no table, so nothing listed, and no command yet (R172). -/
def State.resetOf (p : Params) : State where
  params := p
  table := []
  configured := false
  log2l := 0
  size := 0
  inbox := []
  response := none

/-- The machine right after reset, on the default instance (R27; assumption 1 for the instance). -/
def State.reset : State := State.resetOf Params.default

end Sys2Proof.Machine
end

