-- ==== Sys2Proof/Machine/Ops.lean ====
section
/-! DEFINITION. The named operations over the table and the registers: `MemRead` and `MemWrite` (spec/00_scope.md R14),
the whole-table passes, `respond` and `raise` (R14, spec/60_exceptions.md R152: the engine's only form of exception),
instantiation (R83) and reset (R170). -/

namespace Sys2Proof.Machine

/-- The outcome type of every meaning. -/
abbrev Result := Host.Outcome State Fault Refusal

/-! ### The counter table -/

/-- The canonical form: indices strictly rising and no listed word 0, so that equal tables are equal lists. -/
def Memory.wf : Memory → Bool
  | [] => true
  | (i, w) :: t => w != 0 && t.all (fun c => decide (i < c.1)) && Memory.wf t

/-- `MemRead(i, 8)`, written `T[i]` (R14). An index that is not listed reads as 0, what CONFIG writes (R129). -/
def Memory.read : Memory → Nat → Word
  | [], _ => 0
  | (j, w) :: t, i => if j = i then w else Memory.read t i

/-- `(i, w)` in front of `t`, or `t` alone when `w` is what an unlisted index reads as. -/
def Memory.push (i : Nat) (w : Word) (t : Memory) : Memory :=
  if w = 0 then t else (i, w) :: t

/-- `MemWrite(i, 8, w)`, written `T[i] <- w` (R14). -/
def Memory.write : Memory → Nat → Word → Memory
  | [], i, w => Memory.push i w []
  | (j, v) :: t, i, w =>
    if i < j then Memory.push i w ((j, v) :: t)
    else if i = j then Memory.push i w t
    else (j, v) :: Memory.write t i w

/-- The table of a successful CONFIG: every word is 0 (R129). -/
def Memory.zeroed : Memory := []

/-- `0x7777777777777777`: it strips the bit that would bleed from one counter into the next (R105). -/
def agingMask : Word := 0x7777777777777777

/-- One word of the aging pass: `(block >> 1) & 0x7777777777777777` (R105). -/
def halveWord (w : Word) : Word := (w >>> 1) &&& agingMask

/-- The aging loop `for i in 0 .. L-1: T[i] <- halveWord T[i]` (R105) on the whole table: words at `L` or above are left. -/
def Memory.halveBelow (L : Nat) : Memory → Memory
  | [] => []
  | (i, w) :: t => Memory.push i (if i < L then halveWord w else w) (Memory.halveBelow L t)

/-! ### Lengths -/

/-- The table length `L = 2^LOG2L` (R11, R23). -/
def State.tableLength (s : State) : Nat := 2 ^ s.log2l.toNat

/-- The sampling size `S = SAMPLE_FACTOR × L` (R11). -/
def State.samplingSize (s : State) : Nat := s.params.sampleFactor * s.tableLength

/-! ### Responses -/

/-- `respond(status, result)` (R14): the command ends with that response. -/
def State.respond (s : State) (status : Status) (result : Word) : State :=
  { s with response := some ⟨status, result⟩ }

/-- `raise <Status>()` (R14, R152): the command ends at once with that status, `RESULT = 0` and no state change. -/
def raise (status : Status) (s : State) : Result := .next (s.respond status 0)

/-! ### Passes and register updates -/

/-- `AGING_PASS()`: halve every counter (R105) and set `SIZE <- SIZE / 2` (R106). -/
def State.agingPass (s : State) : State :=
  { s with table := s.table.halveBelow s.tableLength, size := s.size / 2 }

/-- The effects of a successful CONFIG with `LOG2L <- k` (R129). -/
def State.configure (s : State) (k : Nat) : State :=
  { s with log2l := BitVec.ofNat 5 k, table := Memory.zeroed, size := 0, configured := true }

/-- `T[i] <- w` (R14). -/
def State.writeWord (s : State) (i : Nat) (w : Word) : State := { s with table := s.table.write i w }

/-- The reset signal (R27, R170): the registers take their reset values, the table is no state any more, no response is
given (R171, R165), and the parameters stay (R170). -/
def State.resetEngine (s : State) : State :=
  { s with table := Memory.zeroed, configured := false, log2l := 0, size := 0, response := none }

/-- The inbox after a step has taken its first input. -/
def State.withInbox (s : State) (rest : List HostInput) : State := { s with inbox := rest }

/-- Making an instance: an even seed is refused (R83), and so is a parameter outside the constraints of R9; the instance
begins in the state after reset. -/
def instantiate (p : Params) : Result :=
  if p.seedsOdd = false then .refused .evenSeed
  else if p.sizesFit = false then .refused .parametersOutOfRange
  else .next (State.resetOf p)

end Sys2Proof.Machine
end

