-- ==== Sys2Proof/Machine/Operands.lean ====
section
/-! DEFINITION. The operand forms: a counter inside a word (spec/20_memory.md R40, R41), the four counter addresses of a
hash (spec/40_addressing.md), and the capacity rounding (spec/44_capacity.md R126). -/

namespace Sys2Proof.Machine

/-! ### Counters inside a word -/

/-- `field(w, off)`: the 4-bit counter at bit offset `off` of `w` (R14, R41). -/
def field (w : Word) (off : Nat) : Counter := (w >>> off).setWidth 4

/-- `setfield(w, off, c)`: `w` with that counter replaced by `c` (R41). -/
def setfield (w : Word) (off : Nat) (c : Counter) : Word :=
  (w &&& ~~~(0xF#64 <<< off)) ||| (c.setWidth 64 <<< off)

/-- The counter maximum 15: a counter that holds it is saturated (R9). -/
def counterMax : Counter := 15

/-! ### The addressing unit -/

/-- A counter address: block index (a table word index) and bit offset (R75). -/
structure CounterAddr where
  block  : Nat
  offset : Nat
  deriving DecidableEq, Repr

/-- The rows in the order of the pseudocode's loop `for r in 0..3` (R15). -/
def rows : List Row := [0, 1, 2, 3]

/-- The product of row `r`, modulo 2^64; the hash is widened with zeros (R75, R76). -/
def rowProduct (p : Params) (h : Hash) (r : Row) : Word := p.seed r * h.setWidth 64

/-- `m += m >> 32` modulo 2^64 (R76). -/
def foldHigh (m : Word) : Word := m + (m >>> 32)

/-- `block(h, r)`: the folded product masked with `L − 1` (R76). -/
def block (p : Params) (log2l : BitVec 5) (h : Hash) (r : Row) : Nat :=
  (foldHigh (rowProduct p h r) &&& BitVec.ofNat 64 (2 ^ log2l.toNat - 1)).toNat

/-- `sel(h)`: the first counter slot of sub-block `h[1:0]` (R78, C1). -/
def sel (h : Hash) : Nat := (h &&& 3).toNat * 4

/-- `offset(h, r)` (R78). -/
def offset (h : Hash) (r : Row) : Nat := (sel h + r.val) * 4

/-- `addrgen(h)`: the four counter addresses of a hash (R84). -/
def addrgen (p : Params) (log2l : BitVec 5) (h : Hash) : List CounterAddr :=
  rows.map fun r => ⟨block p log2l h r, offset h r⟩

/-- The four addresses of `h` in the state `s` (R82: they depend on the parameters and `LOG2L` alone). -/
def State.addrs (s : State) (h : Hash) : List CounterAddr := addrgen s.params s.log2l h

/-- The counter of the table at an address. -/
def Memory.counter (t : Memory) (a : CounterAddr) : Counter := field (t.read a.block) a.offset

/-! ### Capacity rounding -/

/-- The least `k` with `n ≤ 2^k` (R126). -/
def log2Up (n : Nat) : Nat := if n ≤ 1 then 0 else Nat.log2 (n - 1) + 1

/-- `next_pow2(n)`: the smallest power of two that is at least `n` (R126). -/
def nextPow2 (n : Nat) : Nat := 2 ^ log2Up n

end Sys2Proof.Machine
end

