-- ==== Sys2Proof/Machine/Capacity.lean ====
section
/-! DEFINITION. CONFIG (spec/44_capacity.md). -/

namespace Sys2Proof.Machine

/-- CONFIG `n` (R125): `n ≤ 0` is refused (R127), a length above the store is refused (R128), else the table of
`next_pow2(n)` zero words is made, whatever was there before (R129, R130). It runs whatever `CONFIGURED` is. -/
def execConfig (n : Int) (s : State) : Result :=
  if n ≤ 0 then raise .errInvalidCapacity s
  else if s.params.lMax < nextPow2 n.toNat then raise .errCapacityTooLarge s
  else .next ((s.configure (log2Up n.toNat)).respond .ok 0)

end Sys2Proof.Machine
end

