-- ==== Sys2Proof/Machine/Flags.lean ====
section
/-! DEFINITION. The engine has no condition codes (spec/10_state.md R29). What it reports in bits is here: the status codes
(spec/60_exceptions.md R150), the two result bits of RECORD (spec/41_record.md R94) and the status word of RD_STAT
(spec/45_debug.md R142). -/

namespace Sys2Proof.Machine

/-- The 4-bit `STATUS` code (R150). -/
def Status.code : Status → BitVec 4
  | .ok => 0x0
  | .errInvalidCapacity => 0x1
  | .errCapacityTooLarge => 0x2
  | .errNotConfigured => 0x3
  | .errIllegal => 0x4
  | .errIndexRange => 0x5

/-- Reading a recorded `STATUS` code: `0x6` to `0xF` is never returned, so it is a fault of the record (R150, U9). -/
def readStatus (code : BitVec 4) : Host.Outcome Status Fault Refusal :=
  match code.toNat with
  | 0 => .next .ok
  | 1 => .next .errInvalidCapacity
  | 2 => .next .errCapacityTooLarge
  | 3 => .next .errNotConfigured
  | 4 => .next .errIllegal
  | 5 => .next .errIndexRange
  | _ => .fault (.unknownStatus code)

/-- A boolean used as a number, in 64 bits (R13). -/
def zextBool (b : Bool) : Word := (BitVec.ofBool b).setWidth 64

/-- The result of RECORD: bit 0 a counter was incremented, bit 1 the aging pass ran (R94). -/
def recordResult (inc aged : Bool) : Word := (zextBool aged <<< 1) ||| zextBool inc

/-- The status word: `CONFIGURED` at bit 63, `LOG2L` at bits 36..32, `SIZE` at bits 31..0, zeros between (R142). -/
def State.statusWord (s : State) : Word := BitVec.ofBool s.configured ++ 0#26 ++ s.log2l ++ s.size

end Sys2Proof.Machine
end

