-- ==== Sys2Proof/Machine/Debug.lean ====
section
/-! DEFINITION. The debug commands: AGE (spec/42_aging.md R108), RD_WORD, WR_WORD and RD_STAT (spec/45_debug.md). They are
reached only when `DEBUG_CMDS = present`: the decoder sees to that (R65). -/

namespace Sys2Proof.Machine

/-- AGE: the aging pass on demand (R108). -/
def execAge (s : State) : Result :=
  if s.configured = false then raise .errNotConfigured s
  else .next (s.agingPass.respond .ok 0)

/-- The range check of a word index (R136): no index wraps. -/
def State.indexInRange (s : State) (i : Nat) : Bool := decide (i < s.tableLength)

/-- RD_WORD `i` (R137). -/
def execRdWord (i : Nat) (s : State) : Result :=
  if s.configured = false then raise .errNotConfigured s
  else if s.indexInRange i = false then raise .errIndexRange s
  else .next (s.respond .ok (s.table.read i))

/-- WR_WORD `i, d` (R138). -/
def execWrWord (i : Nat) (d : Word) (s : State) : Result :=
  if s.configured = false then raise .errNotConfigured s
  else if s.indexInRange i = false then raise .errIndexRange s
  else .next ((s.writeWord i d).respond .ok 0)

/-- RD_STAT (R140): it completes with OK whatever `CONFIGURED` is (R155). -/
def execRdStat (s : State) : Result := .next (s.respond .ok s.statusWord)

end Sys2Proof.Machine
end

