-- ==== Sys2Proof/Machine/Query.lean ====
section
/-! DEFINITION. QUERY and HAS (spec/43_query.md). -/

namespace Sys2Proof.Machine

/-- The loop of R115: the minimum of the counters at `as`, starting at 15. -/
def minCounter (t : Memory) (as : List CounterAddr) : Nat :=
  as.foldl (fun f a => min f (t.counter a).toNat) 15

/-- The frequency estimate of `h` (R115). -/
def State.estimate (s : State) (h : Hash) : Nat := minCounter s.table (s.addrs h)

/-- QUERY `h` (R115). -/
def execQuery (h : Hash) (s : State) : Result :=
  if s.configured = false then raise .errNotConfigured s
  else .next (s.respond .ok (BitVec.ofNat 64 (s.estimate h)))

/-- HAS `h` (R117). -/
def execHas (h : Hash) (s : State) : Result :=
  if s.configured = false then raise .errNotConfigured s
  else .next (s.respond .ok (zextBool (decide (0 < s.estimate h))))

end Sys2Proof.Machine
end

