-- ==== Sys2Proof/Machine/Record.lean ====
section
/-! DEFINITION. RECORD (spec/41_record.md). -/

namespace Sys2Proof.Machine

/-- One lane of the increment unit (R91): the counter at `a` rises by one unless it is 15, and the flag `inc` of the
pseudocode is set when it rises. The pair is (table so far, `inc` so far). -/
def lane (acc : Memory × Bool) (a : CounterAddr) : Memory × Bool :=
  if acc.1.counter a = counterMax then acc
  else (acc.1.write a.block (setfield (acc.1.read a.block) a.offset (acc.1.counter a + 1)), true)

/-- The loop over the four lanes of R90. -/
def recordLanes (t : Memory) (as : List CounterAddr) : Memory × Bool := as.foldl lane (t, false)

/-- The sample-counting half of a successful RECORD (R93): `SIZE` rises by one, and the aging pass runs when it then
equals `S`. -/
def countSample (s : State) : Result :=
  let s1 := { s with size := s.size + 1 }
  if s1.size.toNat = s1.samplingSize then .next (s1.agingPass.respond .ok (recordResult true true))
  else .next (s1.respond .ok (recordResult true false))

/-- RECORD `h` (R90). -/
def execRecord (h : Hash) (s : State) : Result :=
  if s.configured = false then raise .errNotConfigured s
  else
    let r := recordLanes s.table (s.addrs h)
    if r.2 then countSample { s with table := r.1 }
    else .next ({ s with table := r.1 }.respond .ok (recordResult false false))

end Sys2Proof.Machine
end

