-- ==== Sys2Proof/Machine/Dispatch.lean ====
section
/-! DEFINITION. One arm per command of the opcode map (spec/30_encoding.md R59). -/

namespace Sys2Proof.Machine

def exec (i : Instr) (s : State) : Host.Outcome State Fault Refusal :=
  match i with
  | .config n => Sys2Proof.Machine.execConfig n s
  | .record h => Sys2Proof.Machine.execRecord h s
  | .query h => Sys2Proof.Machine.execQuery h s
  | .has h => Sys2Proof.Machine.execHas h s
  | .age => Sys2Proof.Machine.execAge s
  | .rdword k => Sys2Proof.Machine.execRdWord k s
  | .wrword k d => Sys2Proof.Machine.execWrWord k d s
  | .rdstat => Sys2Proof.Machine.execRdStat s

end Sys2Proof.Machine
end

