-- ==== Sys2Proof/Machine/Serve.lean ====
section
/-! DEFINITION. Serving one host input (spec/60_exceptions.md R165): a command is decoded and run as one atomic transition
(spec/20_memory.md R46), the reset signal resets (spec/70_reset_and_hazards.md R170). -/

namespace Sys2Proof.Machine

/-- One command: decoded (R61), then run; ILLEGAL completes with ERR_ILLEGAL and changes no state (R61, R151). -/
def serve (c : Command) (s : State) : Result :=
  match decode s.params c with
  | .instr i => exec i s
  | .illegal _ => raise .errIllegal s

/-- One host input, already taken from the inbox (R165). A reset abandons whatever command was in progress (R171). -/
def serveInput (x : HostInput) (s : State) : Result :=
  match x with
  | .issue c => serve c s
  | .reset _ => .next s.resetEngine

end Sys2Proof.Machine
end

