-- ==== Sys2Proof/Machine/Step.lean ====
section
/-! DEFINITION. The step: the engine takes the host's next input and serves it; without one it is idle and its state holds
(spec/60_exceptions.md R164, spec/70_reset_and_hazards.md R172). There is no program counter (spec/10_state.md R32). -/

namespace Sys2Proof.Machine

def step (s : State) : Host.Outcome State Fault Refusal :=
  match s.inbox with
  | [] => .next s
  | x :: rest => serveInput x (s.withInbox rest)

/-- `s` with the opcode-table word `w` issued as the host's very next command (assumption 4). -/
def State.withFetchWord (s : State) (nbits w : Nat) : State :=
  s.withInbox (.issue (tableCommand nbits w) :: s.inbox)

end Sys2Proof.Machine
end

