-- ==== Sys2Proof/Machine/Assembler.lean ====
section
/-! DEFINITION. The assembler of spec/30_encoding.md R68 (command text) and R69 (pseudo-instructions). A line is cut into
tokens, read as an assembler line with its numbers as integers, expanded, checked against the ranges of R68, and encoded. -/

namespace Sys2Proof.Machine

/-- A line with a command (R68) or a pseudo-instruction (R69); the numbers are as written. -/
inductive AsmLine where
  | config (n : Int)
  | record (h : Int)
  | query (h : Int)
  | has (h : Int)
  | age
  | rdword (i : Int)
  | wrword (i d : Int)
  | rdstat
  | new (n : Int)
  | changeCapacity (n : Int)
  | recordAccess (h : Int)
  | getFrequency (h : Int)
  deriving DecidableEq, Repr

/-- The value of a field of `width` bits, refused outside `0 .. 2^width − 1` (R68). -/
def unsignedOperand (width : Nat) (v : Int) : Option Nat :=
  if 0 ≤ v ∧ v < 2 ^ width then some v.toNat else none

/-- A 32-bit hash operand (R68). -/
def hashOperand (v : Int) : Option Hash := (unsignedOperand 32 v).map (BitVec.ofNat 32)

/-- A capacity operand, refused outside `−2^31 .. 2^31 − 1` (R68). -/
def capacityOperand (v : Int) : Option Int := if capacityFits v then some v else none

/-- The one command a line stands for, `none` where a number is outside its range (R68, R69). -/
def AsmLine.instr : AsmLine → Option Instr
  | .config n => (capacityOperand n).map .config
  | .record h => (hashOperand h).map .record
  | .query h => (hashOperand h).map .query
  | .has h => (hashOperand h).map .has
  | .age => some .age
  | .rdword i => (unsignedOperand 32 i).map .rdword
  | .wrword i d =>
    match unsignedOperand 32 i, unsignedOperand 64 d with
    | some k, some v => some (.wrword k (BitVec.ofNat 64 v))
    | _, _ => none
  | .rdstat => some .rdstat
  | .new n => (capacityOperand n).map .config
  | .changeCapacity n => (capacityOperand n).map .config
  | .recordAccess h => (hashOperand h).map .record
  | .getFrequency h => (hashOperand h).map .query

/-- The command word and data operand of a line (R68: `RSV` is 0, `DATA` is 0 but for `wrword`). -/
def AsmLine.assemble (a : AsmLine) : Option Command := a.instr.map encode

/-! ### Text -/

/-- Space, tab or carriage return. -/
def isBlankChar (c : Char) : Bool := c == ' ' || c == '\t' || c == '\r'

/-- Everything before a `;`, which starts a comment (R68). -/
def stripComment (cs : List Char) : List Char := cs.takeWhile fun c => c != ';'

/-- A token that has been read so far, if any. -/
def flushToken (cur : List Char) : List (List Char) := if cur.isEmpty then [] else [cur]

/-- The tokens of a line: runs of other characters between blanks, and each comma by itself. `cur` is the token read so
far. -/
def tokensFrom (cur : List Char) : List Char → List (List Char)
  | [] => flushToken cur
  | c :: cs =>
    if isBlankChar c then flushToken cur ++ tokensFrom [] cs
    else if c == ',' then flushToken cur ++ [c] :: tokensFrom [] cs
    else tokensFrom (cur ++ [c]) cs

/-- The value of a digit in a base up to 16; letters are in lower case already. -/
def digitValue (base : Nat) (c : Char) : Option Nat :=
  let v := if '0' ≤ c ∧ c ≤ '9' then c.toNat - 48 else if 'a' ≤ c ∧ c ≤ 'f' then c.toNat - 87 else 16
  if v < base then some v else none

/-- The value of a digit string, most significant digit first, after `acc`. -/
def digitsFrom (base : Nat) (acc : Nat) : List Char → Option Nat
  | [] => some acc
  | c :: cs =>
    match digitValue base c with
    | some v => digitsFrom base (acc * base + v) cs
    | none => none

/-- A number in decimal or `0x` hexadecimal (R68). -/
def unsignedNumber : List Char → Option Nat
  | [] => none
  | '0' :: 'x' :: [] => none
  | '0' :: 'x' :: cs => digitsFrom 16 0 cs
  | cs => digitsFrom 10 0 cs

/-- A number with an optional minus sign, which only a capacity may have: R68's ranges refuse it elsewhere. -/
def number : List Char → Option Int
  | '-' :: cs => (unsignedNumber cs).map fun v => -(v : Int)
  | cs => (unsignedNumber cs).map fun v => (v : Int)

/-- A line whose mnemonic takes one number. -/
def oneOperand (mk : Int → AsmLine) (args : List (List Char)) : Option AsmLine :=
  match args with
  | [a] => (number a).map mk
  | _ => none

/-- A line whose mnemonic takes none. -/
def noOperand (a : AsmLine) (args : List (List Char)) : Option AsmLine := if args.isEmpty then some a else none

/-- `wrword i, d` (R68). -/
def wrwordOperands (args : List (List Char)) : Option AsmLine :=
  match args with
  | [i, [','], d] =>
    match number i, number d with
    | some iv, some dv => some (.wrword iv dv)
    | _, _ => none
  | _ => none

/-- The mnemonics of R68 and the pseudo-instructions of R69, with what follows each. -/
def mnemonics : List (List Char × (List (List Char) → Option AsmLine)) :=
  [("config".toList, oneOperand .config), ("record".toList, oneOperand .record), ("query".toList, oneOperand .query),
   ("has".toList, oneOperand .has), ("age".toList, noOperand .age), ("rdword".toList, oneOperand .rdword),
   ("wrword".toList, wrwordOperands), ("rdstat".toList, noOperand .rdstat), ("new".toList, oneOperand .new),
   ("change_capacity".toList, oneOperand .changeCapacity), ("record_access".toList, oneOperand .recordAccess),
   ("get_frequency".toList, oneOperand .getFrequency)]

/-- The line a mnemonic and its arguments make. -/
def parseTokens (m : List Char) (args : List (List Char)) : Option AsmLine :=
  match mnemonics.find? fun e => e.1 == m with
  | some e => e.2 args
  | none => none

/-- What one line of command text makes: nothing (blank, or a comment only), a command, or a refusal. -/
inductive Assembled where
  | blank
  | command (c : Command)
  | refused
  deriving DecidableEq, Repr

/-- One line of command text (R68): mnemonics are case-insensitive, so the line is read in lower case. -/
def assembleLine (line : List Char) : Assembled :=
  match tokensFrom [] ((stripComment line).map Char.toLower) with
  | [] => .blank
  | m :: args =>
    match (parseTokens m args).bind AsmLine.assemble with
    | some c => .command c
    | none => .refused

end Sys2Proof.Machine
end

