-- ==== Sys2Proof/Machine/HostBus.lean ====
section
/-! DEFINITION. How a byte-addressed host bus carries a 64-bit `DATA` or `RESULT` field (spec/20_memory.md R43): the order of
the eight bytes is the parameter `HOST_BYTE_ORDER`, and bit `i` of the field is bit `i` of the word. The adapter is
outside the engine: no step uses it. -/

namespace Sys2Proof.Machine

/-- The eight bytes of a field with the lowest address first, bits 7..0 in the first byte when `HOST_BYTE_ORDER` is
little-endian and in the last when it is big-endian. -/
def busBytes (o : ByteOrder) (w : Word) : List Byte :=
  let little := (List.range 8).map fun k => w.extractLsb' (8 * k) 8
  match o with
  | .littleEndian => little
  | .bigEndian => little.reverse

/-- The field that eight little-endian bytes carry. -/
def ofLittleBytes : List Byte → Word
  | [] => 0
  | b :: bs => (ofLittleBytes bs <<< 8) ||| b.setWidth 64

/-- The field that eight bytes carry; no other number of bytes makes a field. -/
def ofBusBytes (o : ByteOrder) (bs : List Byte) : Option Word :=
  if bs.length = 8 then
    some (match o with
      | .littleEndian => ofLittleBytes bs
      | .bigEndian => ofLittleBytes bs.reverse)
  else none

end Sys2Proof.Machine
end

