-- ==== Sys2Proof/Machine/Lanes.lean ====
section
/-! DEFINITION. The parallel form of the increment unit (spec/41_record.md R96, R97): every lane reads the table as it was
before the command, and the lanes that address one word merge into one write of it. R96 asks that it equal the sequential
loop of R90, which RECORD runs; an obligation states that it does. -/

namespace Sys2Proof.Machine

/-- What the lane at `a` adds to its word: `1 << off` unless its counter is 15 (R91, R41). -/
def laneAddend (t : Memory) (a : CounterAddr) : Word :=
  if t.counter a = counterMax then 0 else 1#64 <<< a.offset

/-- The word written back to index `i`: the old word with every lane's increment merged in (R97). -/
def mergedWord (t : Memory) (as : List CounterAddr) (i : Nat) : Word :=
  as.foldl (fun w a => if a.block = i then w + laneAddend t a else w) (t.read i)

/-- The parallel unit: the merged words, and whether any lane incremented (R96, R97). -/
def parallelLanes (t : Memory) (as : List CounterAddr) : Memory × Bool :=
  (as.foldl (fun m a => m.write a.block (mergedWord t as a.block)) t,
   as.any fun a => decide (t.counter a ≠ counterMax))

/-- The aging pass built as one word per step, in the order of the list `is` (R113). -/
def ageInOrder (is : List Nat) (t : Memory) : Memory :=
  is.foldl (fun m i => m.write i (halveWord (m.read i))) t

end Sys2Proof.Machine
end

