-- ==== Sys2Proof/Safety.lean ====
section
/-! DEFINITION. The terms the statements use: the invariant of the engine (spec/10_state.md R25), what a step leaves alone,
the conditions the rules name (a successful record, an illegal word, a power of two at least `n`), and runs of records. -/

namespace Sys2Proof.Machine

/-- The invariant of the engine between commands. -/
structure State.Inv (s : State) : Prop where
  /-- The instance satisfies R9 and R83. -/
  params : s.params.wf = true
  /-- The table is in its canonical form. -/
  canonical : s.table.wf = true
  /-- `LOG2L ≤ LOG2_LMAX` while configured (R23). -/
  fits : s.configured = true → s.log2l.toNat ≤ s.params.log2LMax
  /-- `SIZE < S` while configured (R25). -/
  sampled : s.configured = true → s.size.toNat < s.samplingSize
  /-- The table holds the words `0 .. L−1` and no other while configured (R21). -/
  within : s.configured = true → ∀ c ∈ s.table, c.1 < s.tableLength
  /-- While not configured, there is no table and `LOG2L` and `SIZE` are 0 (R21, R25, R142). -/
  unconfigured : s.configured = false → s.log2l = 0 ∧ s.size = 0 ∧ s.table = []
  /-- A response that is not OK carries `RESULT = 0` (R60). -/
  precise : ∀ r, s.response = some r → r.status ≠ .ok → r.result = 0

/-- `t` has the architectural state of `s` (R20) and its parameters. -/
def sameEngine (s t : State) : Prop :=
  t.params = s.params ∧ t.table = s.table ∧ t.configured = s.configured ∧ t.log2l = s.log2l ∧ t.size = s.size

/-- The state a result goes on in, if it does. -/
def Result.state? (o : Result) : Option State :=
  match o with
  | .next t => some t
  | .fault _ => none
  | .refused _ => none

/-- The counter in slot `k` of word `i` (R40: bits `[4k+3 : 4k]`). -/
def State.slot (s : State) (i k : Nat) : Counter := field (s.table.read i) (4 * k)

/-- A RECORD of `h` is successful: at least one of its four counters is below 15 (R92). -/
def State.recordSucceeds (s : State) (h : Hash) : Prop := ∃ a ∈ s.addrs h, s.table.counter a ≠ counterMax

/-- Slot `k` of word `i` is one of the four counters of `h` (R81). -/
def State.hasSlot (s : State) (h : Hash) (i k : Nat) : Prop := ⟨i, 4 * k⟩ ∈ s.addrs h

/-- The counter in slot `k` of word `i` after the four lanes of a RECORD of `h` (R91): one more if it is one of the four
counters of `h` and below 15, else what it was. -/
def State.slotRecorded (s : State) (h : Hash) (i k : Nat) (c : Counter) : Prop :=
  ((s.hasSlot h i k ∧ s.slot i k ≠ counterMax) → c.toNat = (s.slot i k).toNat + 1) ∧
  (¬ (s.hasSlot h i k ∧ s.slot i k ≠ counterMax) → c = s.slot i k)

/-- A word the decoder of the instance `p` must call ILLEGAL: the four clauses of R151. -/
abbrev illegalWord (p : Params) (c : Command) : Prop :=
  c.rsv ≠ 0 ∨ (c.opc = 0 ∨ 9 ≤ c.opc.toNat) ∨ ((c.opc = 5 ∨ c.opc = 8) ∧ c.arg ≠ 0) ∨
  ((5 ≤ c.opc.toNat ∧ c.opc.toNat ≤ 8) ∧ p.debugCmds = false)

/-- `c` has the fields of one row of the table of R68: `OPC`, `ARG` and `DATA` as unsigned numbers, and `RSV = 0`. -/
structure hasFields (c : Command) (opc : BitVec 4) (arg data : Int) : Prop where
  opc : c.opc = opc
  arg : (c.arg.toNat : Int) = arg
  data : (c.data.toNat : Int) = data
  rsv : c.rsv = 0

/-- The command of opcode `o` is one that ERR_NOT_CONFIGURED applies to: every opcode but CONFIG and RD_STAT (R155). -/
def needsTable (o : BitVec 4) : Bool := decide (o ≠ 1) && decide (o ≠ 8)

/-- The one status of a command, by the list of R156: the first check that matches wins. `next_pow2(n) > L_MAX` is written
`n > L_MAX`, the same since `L_MAX` is a power of two. -/
def expectedStatus (s : State) (c : Command) : Status :=
  if illegalWord s.params c then .errIllegal
  else if needsTable c.opc = true ∧ s.configured = false then .errNotConfigured
  else if c.opc = 1 ∧ c.arg.toInt ≤ 0 then .errInvalidCapacity
  else if c.opc = 1 ∧ (s.params.lMax : Int) < c.arg.toInt then .errCapacityTooLarge
  else if (c.opc = 6 ∨ c.opc = 7) ∧ s.tableLength ≤ c.arg.toNat then .errIndexRange
  else .ok

/-- Two states that differ at most in table words the engine does not have: those at `L` or above, and all of them while
`CONFIGURED = 0` (R21, R27). -/
structure agreeInside (s t : State) : Prop where
  params : t.params = s.params
  configured : t.configured = s.configured
  log2l : t.log2l = s.log2l
  size : t.size = s.size
  inbox : t.inbox = s.inbox
  response : t.response = s.response
  words : s.configured = true → ∀ i, i < s.tableLength → t.table.read i = s.table.read i

/-- `2^k` is the smallest power of two that is at least `n` (R126). -/
def leastExponent (n k : Nat) : Prop := n ≤ 2 ^ k ∧ ∀ j, n ≤ 2 ^ j → k ≤ j

/-- Running RECORDs one after the other from `s`: the last state and the results in order, if each completes with OK. -/
def runRecords : List Hash → State → Option (State × List Word)
  | [], s => some (s, [])
  | h :: hs, s =>
    match Result.state? (exec (.record h) s) with
    | some t =>
      match t.response with
      | some r =>
        if r.status = .ok then (runRecords hs t).map fun u => (u.1, r.result :: u.2) else none
      | none => none
    | none => none

/-- Running RECORDs with no aging pass in any of them (`RESULT[1] = 0` each time, R94). -/
def runsQuietly (hs : List Hash) (s t : State) : Prop :=
  ∃ rs, runRecords hs s = some (t, rs) ∧ ∀ r ∈ rs, r.getLsbD 1 = false

end Sys2Proof.Machine
end

