-- ==== Sys2Proof/Certificates/Slice0/Obligations.lean ====
section
/-! DEFINITION. The statements about the model, for the provers. Each docstring names the rule of spec/ it formalises. The
parameters of an instance are a field of the state, so every statement holds for every instance. -/

open Sys2Proof Sys2Proof.Machine

/-! ### Encoding -/

/-- Decoding the encoding of any command an instance has gives the command back, every operand at every value its field
holds (30_encoding.md, R56, R58, R59 and R61 together). -/
def Obligations.DecodeOfEncodeIsTheCommand : Prop :=
  ∀ (p : Params) (i : Instr), i.wf p = true → decode p (encode i) = .instr i

/-- A word that decodes to a command is that command's own encoding, its operands are in range, and the value WR_WORD
writes is `DATA`: no other word has a meaning (R66). -/
def Obligations.DecodedWordsAreEncodings : Prop :=
  ∀ (p : Params) (c : Command) (i : Instr), decode p c = .instr i →
    i.wf p = true ∧ (encode i).cmd = c.cmd ∧ ∀ k d, i = .wrword k d → d = c.data

/-- R151 with R61 to R66: exactly the words of its four clauses complete with ERR_ILLEGAL; every other word runs the command
it decodes to, which completes with another status. -/
def Obligations.ExactlyTheIllegalWordsAnswerErrIllegal : Prop :=
  ∀ (s : State) (c : Command) (rest : List HostInput), s.inbox = .issue c :: rest →
    (illegalWord s.params c → step s = .next { s with inbox := rest, response := some ⟨.errIllegal, 0⟩ }) ∧
    (¬ illegalWord s.params c →
      ∃ i t st r, decode s.params c = .instr i ∧ step s = exec i { s with inbox := rest } ∧
        step s = .next t ∧ t.response = some ⟨st, r⟩ ∧ st ≠ .errIllegal)

/-- R57: only opcode `0x7`, WR_WORD, uses `DATA`, and `DATA` is the word it writes. For every other opcode the value of
`DATA` has no effect on the state or the response. -/
def Obligations.DataReachesOnlyWrWord : Prop :=
  ∀ (s : State) (cmd d d' : Word),
    (cmd.extractLsb' 0 4 ≠ 0x7 → serve ⟨cmd, d⟩ s = serve ⟨cmd, d'⟩ s) ∧
    ∀ k e, decode s.params ⟨cmd, d⟩ = .instr (.wrword k e) →
      e = d ∧ (s.Inv → s.configured = true → k < s.tableLength →
        ∃ t, serve ⟨cmd, d⟩ s = .next t ∧ t.table.read k = d)

/-- The encoding examples of R70, on any instance with the debug commands. -/
def Obligations.TheExampleWordsDecode : Prop :=
  ∀ p : Params, p.debugCmds = true →
    decode p ⟨0x0000006400000001, 0⟩ = .instr (.config 100) ∧
    decode p ⟨0xFFFFFFFF00000001, 0⟩ = .instr (.config (-1)) ∧
    decode p ⟨0x1234567800000002, 0⟩ = .instr (.record 0x12345678) ∧
    decode p ⟨0x0000000700000003, 0⟩ = .instr (.query 7) ∧
    decode p ⟨0xDEADBEEF00000004, 0⟩ = .instr (.has 0xDEADBEEF) ∧
    decode p ⟨0x0000000000000005, 0⟩ = .instr .age ∧
    decode p ⟨0x0000000300000006, 0⟩ = .instr (.rdword 3) ∧
    decode p ⟨0x0000000000000007, 0xF9⟩ = .instr (.wrword 0 0xF9) ∧
    decode p ⟨0x0000000000000008, 0⟩ = .instr .rdstat

/-- The status codes of the table of R150: each status reads back from its code, and the codes `0x6` to `0xF`, which no
engine returns, are a fault of the record (93_implementation_defined.md U9). -/
def Obligations.StatusCodesReadBack : Prop :=
  (Status.ok.code = 0x0 ∧ Status.errInvalidCapacity.code = 0x1 ∧ Status.errCapacityTooLarge.code = 0x2 ∧
    Status.errNotConfigured.code = 0x3 ∧ Status.errIllegal.code = 0x4 ∧ Status.errIndexRange.code = 0x5) ∧
  (∀ st : Status, readStatus st.code = .next st) ∧
  ∀ code : BitVec 4, 6 ≤ code.toNat → readStatus code = .fault (.unknownStatus code)

/-! ### The step -/

/-- When the host's next input is a command that decodes to `i`, a step is `exec i` on the state with that input taken. The
inbox is the model's own form of the host (assumption 3). -/
def Obligations.StepRunsTheDecodedCommand : Prop :=
  ∀ (s : State) (c : Command) (rest : List HostInput) (i : Instr), s.inbox = .issue c :: rest →
    decode s.params c = .instr i → step s = exec i { s with inbox := rest }

/-- With no input waiting, the engine is idle and its state holds (R164, R172). The idle step is the model's own (assumption
3). -/
def Obligations.IdleEngineHoldsItsState : Prop :=
  ∀ s : State, s.inbox = [] → step s = .next s

/-- The reset signal (R170, R171): from any state, with or without a command in progress, the registers take the reset
values of R27, the parameters stay, and whatever input comes next is taken. The model's own: that the response field is then
empty and the waiting inputs stay (assumptions 3 and 5), and that the input carries the command it abandons (assumption 5). -/
def Obligations.ResetSignalGivesTheResetValues : Prop :=
  ∀ (s : State) (o : Option Command) (rest : List HostInput), s.inbox = .reset o :: rest →
    ∃ t, step s = .next t ∧ t.configured = false ∧ t.log2l = 0 ∧ t.size = 0 ∧ t.params = s.params ∧
      t.inbox = rest ∧ t.response = none ∧ ∀ x, ∃ u, step { t with inbox := [x] } = .next u

/-- Right after reset, on every instance (R27): the three registers are 0, RD_STAT returns 0, and a command that reads the
table is refused with ERR_NOT_CONFIGURED. -/
def Obligations.StateAfterReset : Prop :=
  ∀ p : Params,
    (State.resetOf p).configured = false ∧ (State.resetOf p).log2l = 0 ∧ (State.resetOf p).size = 0 ∧
    exec .rdstat (State.resetOf p) = .next { State.resetOf p with response := some ⟨.ok, 0⟩ } ∧
    (∀ h, exec (.query h) (State.resetOf p) = .next { State.resetOf p with response := some ⟨.errNotConfigured, 0⟩ }) ∧
    ∀ i, exec (.rdword i) (State.resetOf p) = .next { State.resetOf p with response := some ⟨.errNotConfigured, 0⟩ }

/-- An instance with an even seed is refused at instantiation (R83, D29). The model's own (assumption 6): that this refusal
comes first, that odd seeds with parameters outside R9 are refused under another name, and that an instance which satisfies
both begins in its reset state. -/
def Obligations.EvenSeedsAreRefused : Prop :=
  ∀ p : Params,
    ((∃ r : Row, (p.seed r).toNat % 2 = 0) → instantiate p = .refused .evenSeed) ∧
    ((∀ r : Row, (p.seed r).toNat % 2 = 1) → 1 ≤ p.sampleFactor → p.log2LMax ≤ 31 →
      p.sampleFactor * 2 ^ p.log2LMax ≤ 2 ^ 32 - 1 → instantiate p = .next (State.resetOf p)) ∧
    ((∀ r : Row, (p.seed r).toNat % 2 = 1) →
      (p.sampleFactor = 0 ∨ 31 < p.log2LMax ∨ 2 ^ 32 - 1 < p.sampleFactor * 2 ^ p.log2LMax) →
      instantiate p = .refused .parametersOutOfRange)

/-- R152: every command issued completes with a response, the engine is then ready for the next, and a status other than OK
leaves the whole architectural state as it was and carries `RESULT = 0`. -/
def Obligations.ErrorsChangeNoState : Prop :=
  ∀ (s : State) (c : Command) (rest : List HostInput), s.inbox = .issue c :: rest →
    ∃ t st r, step s = .next t ∧ t.response = some ⟨st, r⟩ ∧ t.inbox = rest ∧
      (st ≠ .ok → sameEngine s t ∧ r = 0)

/-- R156: one status per command, chosen by the list of that rule, first match wins. -/
def Obligations.StatusFollowsThePriorityList : Prop :=
  ∀ (s : State) (c : Command), ∃ t r, serve c s = .next t ∧ t.response = some ⟨expectedStatus s c, r⟩

/-! ### CONFIG -/

/-- R127: a capacity `n ≤ 0`, that is `ARG = 0` or `ARG[31] = 1`, completes with ERR_INVALID_CAPACITY and no state change,
configured or not. -/
def Obligations.NonPositiveCapacityIsRefused : Prop :=
  (∀ (s : State) (n : Int), n ≤ 0 →
    exec (.config n) s = .next { s with response := some ⟨.errInvalidCapacity, 0⟩ }) ∧
  ∀ arg : BitVec 32, (arg = 0 ∨ arg.getLsbD 31 = true) ↔ arg.toInt ≤ 0

/-- R128: when the smallest power of two that is at least `n` is above `L_MAX`, CONFIG completes with
ERR_CAPACITY_TOO_LARGE and no state change. -/
def Obligations.CapacityAboveTheStoreIsRefused : Prop :=
  ∀ (s : State) (n : Int) (k : Nat), 1 ≤ n → leastExponent n.toNat k → 2 ^ s.params.log2LMax < 2 ^ k →
    exec (.config n) s = .next { s with response := some ⟨.errCapacityTooLarge, 0⟩ }

/-- R129 and R130: a successful CONFIG sets `LOG2L` to the least exponent, makes every word `0 .. L−1` of the new table 0 and
`SIZE` 0, and sets `CONFIGURED`, from every state (a configured one of the same length too). -/
def Obligations.ConfigMakesAZeroTable : Prop :=
  ∀ (s : State) (n : Int) (k : Nat), s.params.wf = true → 1 ≤ n → leastExponent n.toNat k →
    2 ^ k ≤ 2 ^ s.params.log2LMax →
    ∃ t, exec (.config n) s = .next t ∧ t.log2l.toNat = k ∧ (∀ i, i < 2 ^ k → t.table.read i = 0) ∧ t.size = 0 ∧
      t.configured = true ∧ t.response = some ⟨.ok, 0⟩ ∧ t.params = s.params ∧ t.inbox = s.inbox

/-- R126: `next_pow2(n)` is the smallest power of two that is at least `n`, with the rule's own examples. -/
def Obligations.NextPow2IsTheLeastPowerOfTwo : Prop :=
  (∀ n, 1 ≤ n → ∃ k, nextPow2 n = 2 ^ k ∧ leastExponent n k) ∧
  nextPow2 1 = 1 ∧ nextPow2 2 = 2 ∧ nextPow2 3 = 4 ∧ nextPow2 100 = 128 ∧ nextPow2 128 = 128 ∧
  nextPow2 129 = 256 ∧ nextPow2 (2 ^ 31 - 1) = 2 ^ 31

/-- After a CONFIG that completes with OK, whatever was recorded before, every QUERY and every HAS returns 0 (R130, R131). -/
def Obligations.ConfigDiscardsEveryCount : Prop :=
  ∀ (s t : State) (n : Int), exec (.config n) s = .next t → t.response = some ⟨.ok, 0⟩ →
    ∀ h, exec (.query h) t = .next { t with response := some ⟨.ok, 0⟩ } ∧
      exec (.has h) t = .next { t with response := some ⟨.ok, 0⟩ }

/-! ### RECORD -/

/-- R91: in a successful RECORD below the threshold, each of the four counters of `h` that is below 15 rises by exactly one,
and every other counter of every word is unchanged; `SIZE` rises by one (R93); nothing else changes. -/
def Obligations.RecordRaisesItsCountersByOne : Prop :=
  ∀ (s : State) (h : Hash), s.Inv → s.configured = true → s.recordSucceeds h →
    s.size.toNat + 1 ≠ s.samplingSize →
    ∃ t, exec (.record h) s = .next t ∧
      (∀ i k, k < 16 → s.slotRecorded h i k (t.slot i k)) ∧ t.size.toNat = s.size.toNat + 1 ∧
      t.response = some ⟨.ok, 1⟩ ∧ t.params = s.params ∧ t.configured = s.configured ∧ t.log2l = s.log2l ∧
      t.inbox = s.inbox

/-- R92: a RECORD with a counter below 15 is successful, and its response says so (R94); one whose four counters are all 15
changes no state at all. -/
def Obligations.SaturatedRecordChangesNothing : Prop :=
  ∀ (s : State) (h : Hash), s.configured = true →
    (s.Inv → s.recordSucceeds h →
      ∃ t r, exec (.record h) s = .next t ∧ t.response = some ⟨.ok, r⟩ ∧ r.getLsbD 0 = true) ∧
    (¬ s.recordSucceeds h → exec (.record h) s = .next { s with response := some ⟨.ok, 0⟩ })

/-- R93: a successful RECORD adds exactly 1 to `SIZE`; if that makes `S`, the same RECORD halves `SIZE` and every counter,
after its own increments; an unsuccessful one does neither. -/
def Obligations.SampleCountingAndTheTrigger : Prop :=
  ∀ (s : State) (h : Hash), s.Inv → s.configured = true →
    ∃ t, exec (.record h) s = .next t ∧
      (¬ s.recordSucceeds h → t.size = s.size ∧ t.table = s.table) ∧
      (s.recordSucceeds h → s.size.toNat + 1 ≠ s.samplingSize →
        t.size.toNat = s.size.toNat + 1 ∧ ∀ i k, k < 16 → s.slotRecorded h i k (t.slot i k)) ∧
      (s.recordSucceeds h → s.size.toNat + 1 = s.samplingSize →
        t.size.toNat = s.samplingSize / 2 ∧
        ∀ i k, i < s.tableLength → k < 16 →
          ∃ c, s.slotRecorded h i k c ∧ (t.slot i k).toNat = c.toNat / 2)

/-- R95: a RECORD that reaches the threshold runs the aging pass exactly once and after its increments, so its own increments
are halved with every other counter; nothing but the table and `SIZE` changes. -/
def Obligations.RecordAtTheThresholdAgesOnce : Prop :=
  ∀ (s : State) (h : Hash), s.Inv → s.configured = true → s.recordSucceeds h →
    s.size.toNat + 1 = s.samplingSize →
    ∃ t, exec (.record h) s = .next t ∧
      (∀ i k, i < s.tableLength → k < 16 →
        ∃ c, s.slotRecorded h i k c ∧ (t.slot i k).toNat = c.toNat / 2) ∧
      (∀ i, s.tableLength ≤ i → t.table.read i = s.table.read i) ∧
      t.size.toNat = s.samplingSize / 2 ∧ t.response = some ⟨.ok, 3⟩ ∧ t.params = s.params ∧
      t.configured = s.configured ∧ t.log2l = s.log2l ∧ t.inbox = s.inbox

/-- R94: on OK, `RESULT[0]` says that the RECORD was successful, `RESULT[1]` that it ran the aging pass, and the other bits
are 0. A RECORD of a configured engine always completes with OK (R153). -/
def Obligations.RecordResultBits : Prop :=
  ∀ (s : State) (h : Hash), s.Inv → s.configured = true →
    ∃ t r, exec (.record h) s = .next t ∧ t.response = some ⟨.ok, r⟩ ∧
      (r.getLsbD 0 = true ↔ s.recordSucceeds h) ∧
      (r.getLsbD 1 = true ↔ s.recordSucceeds h ∧ s.size.toNat + 1 = s.samplingSize) ∧
      (r.getLsbD 1 = true → r.getLsbD 0 = true) ∧ ∀ j, 2 ≤ j → r.getLsbD j = false

/-- R96 and R97: four lanes that all read the table as it was, with the updates of lanes on one word merged, give the same
table and the same flag as the sequential loop of R90. -/
def Obligations.ParallelLanesEqualTheLoop : Prop :=
  ∀ (t : Memory) (p : Params) (l : BitVec 5) (h : Hash), t.wf = true →
    parallelLanes t (addrgen p l h) = recordLanes t (addrgen p l h)

/-- The order of the lanes does not matter (R97, U11). -/
def Obligations.LaneOrderDoesNotMatter : Prop :=
  ∀ (t : Memory) (p : Params) (l : BitVec 5) (h : Hash) (as : List CounterAddr), t.wf = true →
    as.Perm (addrgen p l h) → recordLanes t as = recordLanes t (addrgen p l h)

/-- R99: from any state, 15 or more RECORDs of one hash with no aging pass between them leave all four of its counters at 15,
and one more RECORD of it changes nothing. -/
def Obligations.FifteenRecordsSaturate : Prop :=
  ∀ (s t : State) (h : Hash) (n : Nat), s.Inv → s.configured = true → 15 ≤ n →
    runsQuietly (List.replicate n h) s t →
    (∀ a ∈ t.addrs h, t.table.counter a = 15) ∧
    exec (.record h) t = .next { t with response := some ⟨.ok, 0⟩ }

/-- R100: while no aging pass runs, RECORDs of any hashes never lower a counter, so no hash's estimate falls. -/
def Obligations.RecordsNeverLowerAnEstimate : Prop :=
  ∀ (s t : State) (hs : List Hash), s.Inv → s.configured = true → runsQuietly hs s t →
    (∀ i k, k < 16 → (s.slot i k).toNat ≤ (t.slot i k).toNat) ∧ ∀ h, s.estimate h ≤ t.estimate h

/-- R121: on a table that was all 0, after RECORDs with no aging pass among them, of which `k` are of `h`, each of the four
counters of `h` is at least `min(k, 15)`, and exactly that unless another recorded hash shares it; so is the estimate. -/
def Obligations.CountMinBound : Prop :=
  ∀ (s t : State) (hs : List Hash) (h : Hash), s.Inv → s.configured = true →
    (∀ i, i < s.tableLength → s.table.read i = 0) → runsQuietly hs s t →
    (∀ a ∈ s.addrs h, min (hs.count h) 15 ≤ (t.table.counter a).toNat ∧
      ((∀ g ∈ hs, g ≠ h → a ∉ s.addrs g) → (t.table.counter a).toNat = min (hs.count h) 15)) ∧
    min (hs.count h) 15 ≤ t.estimate h ∧
    ((∀ g ∈ hs, g ≠ h → ∀ a ∈ s.addrs h, a ∉ s.addrs g) → t.estimate h = min (hs.count h) 15)

/-- R112: in a run of RECORDs, the successful one that is number `S − SIZE` (number `S` after a CONFIG, number `S − S/2` after
a pass that `S` set off) runs the aging pass, no earlier one does, and it leaves `SIZE = S / 2`. -/
def Obligations.AgingComesExactlyAtTheThreshold : Prop :=
  ∀ (s t : State) (hs : List Hash) (h : Hash) (rs : List Word) (r : Word), s.Inv → s.configured = true →
    runRecords (hs ++ [h]) s = some (t, rs ++ [r]) → r.getLsbD 0 = true →
    rs.countP (fun q => q.getLsbD 0) + 1 = s.samplingSize - s.size.toNat →
    r = 3 ∧ (∀ q ∈ rs, q.getLsbD 1 = false) ∧ t.size.toNat = s.samplingSize / 2

/-! ### Aging -/

/-- R105, R106 and R108: AGE replaces every word of the table by `(w >> 1) & 0x7777777777777777` and `SIZE` by `SIZE / 2`
rounded down, answers OK with 0, and changes nothing else. -/
def Obligations.AgeHalvesTheWholeTable : Prop :=
  ∀ s : State, s.Inv → s.configured = true →
    ∃ t, exec .age s = .next t ∧
      (∀ i, i < s.tableLength → t.table.read i = (s.table.read i >>> 1) &&& 0x7777777777777777#64) ∧
      (∀ i, s.tableLength ≤ i → t.table.read i = s.table.read i) ∧
      t.size.toNat = s.size.toNat / 2 ∧ t.response = some ⟨.ok, 0⟩ ∧ t.params = s.params ∧
      t.configured = s.configured ∧ t.log2l = s.log2l ∧ t.inbox = s.inbox

/-- R107: halving a word halves each of its sixteen counters, rounded down; no bit of one counter reaches another. -/
def Obligations.HalvingKeepsCountersApart : Prop :=
  ∀ (w : Word) (k : Nat), k < 16 → field ((w >>> 1) &&& 0x7777777777777777#64) (4 * k) = field w (4 * k) >>> 1

/-- R111: after any aging pass, one AGE runs or one a RECORD runs (`RESULT[1] = 1`), every counter of the table is at most 7,
and so is the estimate of every hash. -/
def Obligations.CountersAreAtMostSevenAfterAging : Prop :=
  ∀ (s t : State) (i : Instr) (r : Word), s.Inv → s.configured = true → exec i s = .next t →
    t.response = some ⟨.ok, r⟩ → (i = .age ∨ (∃ h, i = .record h) ∧ r.getLsbD 1 = true) →
    (∀ j k, j < t.tableLength → k < 16 → (t.slot j k).toNat ≤ 7) ∧ ∀ h, t.estimate h ≤ 7

/-- R113: the pass built as one word per step, in any order of the words, gives the same table as the whole pass. -/
def Obligations.AgingOrderIsNotObservable : Prop :=
  ∀ (t : Memory) (L : Nat) (is : List Nat), t.wf = true → is.Perm (List.range L) →
    ageInOrder is t = t.halveBelow L

/-! ### QUERY and HAS -/

/-- R115 and R116: QUERY answers OK with the least of the four counters of `h`, row `r`'s at bit offset `16·h[1:0] + 4r` of
word `block(h, r)`; the result is at most 15 and no state changes (R119). -/
def Obligations.QueryReturnsTheMinimum : Prop :=
  ∀ (s : State) (h : Hash), s.configured = true →
    ∃ f : Nat, exec (.query h) s = .next { s with response := some ⟨.ok, BitVec.ofNat 64 f⟩ } ∧ f ≤ 15 ∧
      (∀ r : Row, f ≤ (field (s.table.read (block s.params s.log2l h r)) (16 * (h.toNat % 4) + 4 * r.val)).toNat) ∧
      ∃ r : Row, f = (field (s.table.read (block s.params s.log2l h r)) (16 * (h.toNat % 4) + 4 * r.val)).toNat

/-- R118: HAS answers 1 exactly when QUERY of the same hash in the same state answers a non-zero estimate, and each answers
ERR_NOT_CONFIGURED exactly when the other does. -/
def Obligations.HasAgreesWithQuery : Prop :=
  ∀ (s : State) (h : Hash), ∃ a b : Response,
    exec (.query h) s = .next { s with response := some a } ∧
    exec (.has h) s = .next { s with response := some b } ∧
    ((b.status = .ok ∧ b.result = 1) ↔ (a.status = .ok ∧ a.result ≠ 0)) ∧
    (b.status = .errNotConfigured ↔ a.status = .errNotConfigured) ∧
    (s.configured = true → a.status = .ok ∧ b.status = .ok ∧ (b.result = 0 ∨ b.result = 1))

/-- HAS of a configured engine answers 0 exactly when at least one of the four counters is 0 (R117), else 1; no state
changes. -/
def Obligations.HasIsZeroExactlyWhenACounterIs : Prop :=
  ∀ (s : State) (h : Hash), s.configured = true →
    ((∃ a ∈ s.addrs h, s.table.counter a = 0) → exec (.has h) s = .next { s with response := some ⟨.ok, 0⟩ }) ∧
    ((∀ a ∈ s.addrs h, s.table.counter a ≠ 0) → exec (.has h) s = .next { s with response := some ⟨.ok, 1⟩ })

/-- R45, R119: QUERY, HAS, RD_WORD and RD_STAT complete and change no architectural state. -/
def Obligations.ReadsHaveNoSideEffect : Prop :=
  ∀ (s : State) (i : Instr), (∃ h, i = .query h) ∨ (∃ h, i = .has h) ∨ (∃ k, i = .rdword k) ∨ i = .rdstat →
    ∃ t, exec i s = .next t ∧ sameEngine s t ∧ t.inbox = s.inbox

/-! ### The addressing unit and counters in a word -/

/-- R76: the product and the fold modulo 2^64, then the remainder modulo `L`; the result is a word index of the table. -/
def Obligations.BlockIsTheFoldModuloTheLength : Prop :=
  ∀ (p : Params) (l : BitVec 5) (h : Hash) (r : Row) (m : Nat), m = (p.seed r).toNat * h.toNat % 2 ^ 64 →
    block p l h r = (m + m / 2 ^ 32) % 2 ^ 64 % 2 ^ l.toNat ∧ block p l h r < 2 ^ l.toNat

/-- R77: the equivalent 32-bit form, `((m[31:0] + m[63:32]) mod 2^32) mod L`. -/
def Obligations.BlockHasThe32BitForm : Prop :=
  ∀ (p : Params) (l : BitVec 5) (h : Hash) (r : Row) (m : Word), m = p.seed r * h.setWidth 64 →
    block p l h r = ((m.extractLsb' 0 32).toNat + (m.extractLsb' 32 32).toNat) % 2 ^ 32 % 2 ^ l.toNat

/-- R78 and R79: row `r` of `h` is at bit offset `16·h[1:0] + 4r`, a multiple of 4 in `[0, 60]`. -/
def Obligations.OffsetIsTheRowOfTheSubBlock : Prop :=
  ∀ (h : Hash) (r : Row),
    offset h r = 16 * (h.extractLsb' 0 2).toNat + 4 * r.val ∧ offset h r ≤ 60 ∧ offset h r % 4 = 0

/-- R81: the four addresses of one hash name four different counters, even where rows share a block. -/
def Obligations.FourDistinctCounters : Prop :=
  ∀ (p : Params) (l : BitVec 5) (h : Hash) (r r' : Row), r ≠ r' →
    offset h r ≠ offset h r' ∧
    (⟨block p l h r, offset h r⟩ : CounterAddr) ≠ ⟨block p l h r', offset h r'⟩

/-- R80: at `L = 1` every row is in word 0, at offset `16·h[1:0] + 4r`, whatever the seeds. -/
def Obligations.LengthOneNeedsNoSeeds : Prop :=
  ∀ (p : Params) (h : Hash), addrgen p 0 h =
    [⟨0, 16 * (h.toNat % 4)⟩, ⟨0, 16 * (h.toNat % 4) + 4⟩, ⟨0, 16 * (h.toNat % 4) + 8⟩, ⟨0, 16 * (h.toNat % 4) + 12⟩]

/-- The worked example of R85, `addrgen(1)` at `L = 16`. It rests on the default seeds, which the spec gives from general
knowledge (R10; assumption 1). -/
def Obligations.TheWorkedAddressExample : Prop :=
  addrgen Params.default 4 1 = [⟨3, 16⟩, ⟨2, 20⟩, ⟨10, 24⟩, ⟨9, 28⟩]

/-- R41: writing one counter changes that counter and no other of the word, and raising a counter below 15 by one adds
`1 << off` to the word. -/
def Obligations.SetfieldChangesOneCounter : Prop :=
  ∀ (w : Word) (k : Nat), k < 16 →
    (∀ c j, j < 16 → field (setfield w (4 * k) c) (4 * j) = if j = k then c else field w (4 * j)) ∧
    (field w (4 * k) ≠ 15 → setfield w (4 * k) (field w (4 * k) + 1) = w + (1#64 <<< (4 * k)))

/-! ### Debug commands -/

/-- RD_WORD of an index in range answers OK with the word and changes no state (R137). -/
def Obligations.RdWordReturnsTheWord : Prop :=
  ∀ (s : State) (i : Nat), s.configured = true → i < s.tableLength →
    exec (.rdword i) s = .next { s with response := some ⟨.ok, s.table.read i⟩ }

/-- R136: an index `i ≥ L` completes with ERR_INDEX_RANGE and changes no state, for the read and the write; no index wraps. -/
def Obligations.IndexAboveTheTableIsRefused : Prop :=
  ∀ (s : State) (i : Nat) (d : Word), s.configured = true → s.tableLength ≤ i →
    exec (.rdword i) s = .next { s with response := some ⟨.errIndexRange, 0⟩ } ∧
    exec (.wrword i d) s = .next { s with response := some ⟨.errIndexRange, 0⟩ }

/-- WR_WORD of an index in range writes `d` to that word and leaves every other word; `SIZE` is not changed and no aging pass
runs, whatever `d` is (R138). -/
def Obligations.WrWordWritesOneWord : Prop :=
  ∀ (s : State) (i : Nat) (d : Word), s.Inv → s.configured = true → i < s.tableLength →
    ∃ t, exec (.wrword i d) s = .next t ∧ t.table.read i = d ∧ (∀ j, j ≠ i → t.table.read j = s.table.read j) ∧
      t.size = s.size ∧ t.response = some ⟨.ok, 0⟩ ∧ t.params = s.params ∧ t.configured = s.configured ∧
      t.log2l = s.log2l ∧ t.inbox = s.inbox

/-- R140 and R142: RD_STAT completes with OK whatever `CONFIGURED` is; its word has `SIZE` at bits 31..0, `LOG2L` at 36..32,
zeros at 62..37 and `CONFIGURED` at 63; while `CONFIGURED = 0` the word is 0. No state changes. -/
def Obligations.RdStatReturnsTheStatusWord : Prop :=
  ∀ s : State, ∃ w : Word, exec .rdstat s = .next { s with response := some ⟨.ok, w⟩ } ∧
    w.extractLsb' 0 32 = s.size ∧ w.extractLsb' 32 5 = s.log2l ∧ w.extractLsb' 37 26 = 0 ∧
    w.getLsbD 63 = s.configured ∧ (s.Inv → s.configured = false → w = 0)

/-- R155: while `CONFIGURED = 0`, the six table commands complete with ERR_NOT_CONFIGURED and change no state; CONFIG and
RD_STAT do not answer it in any state. -/
def Obligations.UnconfiguredEngineRefusesTableCommands : Prop :=
  ∀ s : State,
    (s.configured = false →
      ∀ i : Instr, (∃ h, i = .record h) ∨ (∃ h, i = .query h) ∨ (∃ h, i = .has h) ∨ i = .age ∨
        (∃ k, i = .rdword k) ∨ (∃ k d, i = .wrword k d) →
        exec i s = .next { s with response := some ⟨.errNotConfigured, 0⟩ }) ∧
    ∀ i : Instr, (∃ n, i = .config n) ∨ i = .rdstat →
      ∃ t st r, exec i s = .next t ∧ t.response = some ⟨st, r⟩ ∧ st ≠ .errNotConfigured

/-! ### The whole machine -/

/-- Every step keeps the invariant: the parameters satisfy R9 and R83, the table is in canonical form and holds words
`0 .. L−1` only, `LOG2L ≤ LOG2_LMAX`, `SIZE < S` (R25), and an unconfigured engine has no table and zero registers. -/
def Obligations.StepKeepsTheInvariant : Prop :=
  ∀ s t : State, s.Inv → step s = .next t → t.Inv

/-- The state after reset of every instance that R9 and R83 allow meets the invariant, and so does `State.reset`. -/
def Obligations.ResetMeetsTheInvariant : Prop :=
  (∀ p : Params, p.wf = true → (State.resetOf p).Inv) ∧ State.reset.Inv

/-- R22, R23 and R54: only a CONFIG that completes with OK and the reset signal change `LOG2L` or `CONFIGURED`. -/
def Obligations.OnlyConfigAndResetChangeTheLength : Prop :=
  ∀ s t : State, step s = .next t → (t.log2l ≠ s.log2l ∨ t.configured ≠ s.configured) →
    (∃ o rest, s.inbox = .reset o :: rest) ∨
    ∃ c rest n, s.inbox = .issue c :: rest ∧ decode s.params c = .instr (.config n) ∧ t.response = some ⟨.ok, 0⟩

/-- R24: `SIZE` is written only by RECORD (one more, or the aging pass after it), AGE (the half), CONFIG and reset (0). -/
def Obligations.SizeHasFourWriters : Prop :=
  ∀ s t : State, step s = .next t → t.size ≠ s.size →
    (∃ o rest, s.inbox = .reset o :: rest ∧ t.size = 0) ∨
    ∃ c rest i, s.inbox = .issue c :: rest ∧ decode s.params c = .instr i ∧
      ((∃ n, i = .config n ∧ t.size = 0) ∨ (i = .age ∧ t.size = s.size / 2) ∨
       ∃ h, i = .record h ∧ (t.size = s.size + 1 ∨ t.size = (s.size + 1) / 2))

/-- The table is written only by RECORD, AGE, CONFIG, WR_WORD and reset (R33). -/
def Obligations.TableHasFiveWriters : Prop :=
  ∀ s t : State, step s = .next t → t.table ≠ s.table →
    (∃ o rest, s.inbox = .reset o :: rest) ∨
    ∃ c rest i, s.inbox = .issue c :: rest ∧ decode s.params c = .instr i ∧
      ((∃ n, i = .config n) ∨ (∃ h, i = .record h) ∨ i = .age ∨ ∃ k d, i = .wrword k d)

/-- The parameters are fixed for an instance: no step changes them, not even a reset (R9, R170). -/
def Obligations.StepsKeepTheParameters : Prop :=
  ∀ s t : State, step s = .next t → t.params = s.params

/-- R46: commands run one at a time in the order issued. Serving the inputs `xs` gives the same state whatever `ys` is
waiting behind them, and leaves `ys` waiting. The inbox is the model's own form of the host's stream (assumption 3). -/
def Obligations.LaterInputsDoNotReachEarlierOnes : Prop :=
  ∀ (s u : State) (xs ys : List HostInput),
    Sys2Proof.core.run xs.length { s with inbox := xs } = .next u →
    u.inbox = [] ∧ Sys2Proof.core.run xs.length { s with inbox := xs ++ ys } = .next { u with inbox := ys }

/-- R21 and R27: words at index `L` or above, and all words while `CONFIGURED = 0`, are not observable. Two states that differ
only there answer every input alike and again differ only there, so no run tells them apart. -/
def Obligations.WordsOutsideTheTableAreUnobservable : Prop :=
  ∀ s t s' : State, s.table.wf = true → t.table.wf = true → agreeInside s t → step s = .next s' →
    ∃ t', step t = .next t' ∧ agreeInside s' t' ∧ s'.table.wf = true ∧ t'.table.wf = true

/-! ### Assembler and bus -/

/-- The rows of R68: each line with its numbers in range assembles to a word with the row's `OPC`, `ARG` and `DATA` and
`RSV = 0`, which decodes to that command: the four sketch lines on every instance, the four debug lines on those with the
debug commands (R65). -/
def Obligations.AssembledLinesDecodeToTheirCommand : Prop :=
  (∀ n : Int, -2 ^ 31 ≤ n → n ≤ 2 ^ 31 - 1 →
    ∃ c, (AsmLine.config n).assemble = some c ∧ hasFields c 0x1 (n % 2 ^ 32) 0 ∧ ∀ p, decode p c = .instr (.config n)) ∧
  (∀ h : Int, 0 ≤ h → h ≤ 2 ^ 32 - 1 →
    (∃ c, (AsmLine.record h).assemble = some c ∧ hasFields c 0x2 h 0 ∧
      ∀ p, decode p c = .instr (.record (BitVec.ofInt 32 h))) ∧
    (∃ c, (AsmLine.query h).assemble = some c ∧ hasFields c 0x3 h 0 ∧
      ∀ p, decode p c = .instr (.query (BitVec.ofInt 32 h))) ∧
    ∃ c, (AsmLine.has h).assemble = some c ∧ hasFields c 0x4 h 0 ∧
      ∀ p, decode p c = .instr (.has (BitVec.ofInt 32 h))) ∧
  (∃ c, AsmLine.age.assemble = some c ∧ hasFields c 0x5 0 0 ∧
    ∀ p : Params, p.debugCmds = true → decode p c = .instr .age) ∧
  (∀ i : Int, 0 ≤ i → i ≤ 2 ^ 32 - 1 →
    (∃ c, (AsmLine.rdword i).assemble = some c ∧ hasFields c 0x6 i 0 ∧
      ∀ p : Params, p.debugCmds = true → decode p c = .instr (.rdword i.toNat)) ∧
    ∀ d : Int, 0 ≤ d → d ≤ 2 ^ 64 - 1 →
      ∃ c, (AsmLine.wrword i d).assemble = some c ∧ hasFields c 0x7 i d ∧
        ∀ p : Params, p.debugCmds = true → decode p c = .instr (.wrword i.toNat (BitVec.ofInt 64 d))) ∧
  ∃ c, AsmLine.rdstat.assemble = some c ∧ hasFields c 0x8 0 0 ∧
    ∀ p : Params, p.debugCmds = true → decode p c = .instr .rdstat

/-- R68 and R69: a number outside the stated range is refused, one inside is not, and each pseudo-instruction is one command. -/
def Obligations.AssemblerRangesAndPseudos : Prop :=
  (∀ n : Int, (AsmLine.config n).assemble ≠ none ↔ -2 ^ 31 ≤ n ∧ n ≤ 2 ^ 31 - 1) ∧
  (∀ h : Int, (AsmLine.record h).assemble ≠ none ↔ 0 ≤ h ∧ h ≤ 2 ^ 32 - 1) ∧
  (∀ h : Int, (AsmLine.query h).assemble ≠ none ↔ 0 ≤ h ∧ h ≤ 2 ^ 32 - 1) ∧
  (∀ h : Int, (AsmLine.has h).assemble ≠ none ↔ 0 ≤ h ∧ h ≤ 2 ^ 32 - 1) ∧
  (∀ i : Int, (AsmLine.rdword i).assemble ≠ none ↔ 0 ≤ i ∧ i ≤ 2 ^ 32 - 1) ∧
  (∀ i d : Int, (AsmLine.wrword i d).assemble ≠ none ↔
    (0 ≤ i ∧ i ≤ 2 ^ 32 - 1) ∧ (0 ≤ d ∧ d ≤ 2 ^ 64 - 1)) ∧
  ∀ v : Int, (AsmLine.new v).assemble = (AsmLine.config v).assemble ∧
    (AsmLine.changeCapacity v).assemble = (AsmLine.config v).assemble ∧
    (AsmLine.recordAccess v).assemble = (AsmLine.record v).assemble ∧
    (AsmLine.getFrequency v).assemble = (AsmLine.query v).assemble

/-- Under either value the model gives `HOST_BYTE_ORDER`, the eight bytes of a field carry the whole word, and the two orders
are each other's reverse. R43 leaves the order open: the two values and what they mean are PRESUMED (assumption 9). -/
def Obligations.BusBytesCarryTheWord : Prop :=
  ∀ (o : ByteOrder) (w : Word), (busBytes o w).length = 8 ∧ ofBusBytes o (busBytes o w) = some w ∧
    busBytes .bigEndian w = (busBytes .littleEndian w).reverse ∧
    ∀ k, k < 8 → (busBytes .littleEndian w)[k]? = some (w.extractLsb' (8 * k) 8)
end

