-- ==== Sys2Proof/Laws/Addressing.lean ====
section
/-! SUPPORT. The laws of the addressing unit (spec/40_addressing.md) and of the capacity rounding (spec/44_capacity.md R126):
what later proofs use of them. -/

namespace Sys2Proof.Machine

/-- The bit offset of row `r`, and the counter slot it names (R78, R79). -/
theorem offset_eq (h : Hash) (r : Row) : offset h r = 4 * (4 * (h.toNat % 4) + r.val) := by
  have h3 : (h &&& 3).toNat = h.toNat % 4 := by
    rw [BitVec.toNat_and]
    exact Nat.and_two_pow_sub_one_eq_mod h.toNat 2
  unfold offset sel
  rw [h3]
  omega

theorem slot_lt (h : Hash) (r : Row) : 4 * (h.toNat % 4) + r.val < 16 := by have := r.isLt; omega

/-- The mask by `L − 1` is the remainder modulo `L` (R76). -/
theorem block_eq_mod (p : Params) (l : BitVec 5) (h : Hash) (r : Row) :
    block p l h r = (foldHigh (rowProduct p h r)).toNat % 2 ^ l.toNat := by
  have hl := l.isLt
  have hp : 2 ^ l.toNat ≤ 2 ^ 32 := Nat.pow_le_pow_right (by omega) (by omega)
  unfold block
  rw [BitVec.toNat_and, BitVec.toNat_ofNat, Nat.mod_eq_of_lt (by omega), Nat.and_two_pow_sub_one_eq_mod]

/-- Every block index is a word index of the table (R76). -/
theorem block_lt (p : Params) (l : BitVec 5) (h : Hash) (r : Row) : block p l h r < 2 ^ l.toNat := by
  rw [block_eq_mod]
  exact Nat.mod_lt _ (Nat.two_pow_pos _)

/-- An address names a counter slot. -/
abbrev CounterAddr.valid (a : CounterAddr) : Prop := ∃ k, k < 16 ∧ a.offset = 4 * k

theorem mem_addrgen {p : Params} {l : BitVec 5} {h : Hash} {a : CounterAddr} :
    a ∈ addrgen p l h ↔ ∃ r : Row, a = ⟨block p l h r, offset h r⟩ := by
  simp only [addrgen, List.mem_map]
  constructor
  · rintro ⟨r, -, rfl⟩; exact ⟨r, rfl⟩
  · rintro ⟨r, rfl⟩
    have : r ∈ rows := by revert r; decide
    exact ⟨r, this, rfl⟩

theorem valid_of_mem_addrgen {p : Params} {l : BitVec 5} {h : Hash} {a : CounterAddr} (ha : a ∈ addrgen p l h) :
    a.valid := by
  obtain ⟨r, rfl⟩ := mem_addrgen.1 ha
  exact ⟨_, slot_lt h r, offset_eq h r⟩

theorem block_lt_of_mem_addrgen {p : Params} {l : BitVec 5} {h : Hash} {a : CounterAddr} (ha : a ∈ addrgen p l h) :
    a.block < 2 ^ l.toNat := by
  obtain ⟨r, rfl⟩ := mem_addrgen.1 ha
  exact block_lt p l h r

/-- Two rows of one hash have different offsets. -/
theorem offset_injective (h : Hash) {r r' : Row} (e : offset h r = offset h r') : r = r' := by
  rw [offset_eq, offset_eq] at e
  exact Fin.ext (by omega)

/-- `log2Up` is the least exponent (R126), both halves. -/
theorem le_two_pow_log2Up (n : Nat) : n ≤ 2 ^ log2Up n := by
  unfold log2Up
  split
  · simpa using ‹_›
  · have := Nat.lt_log2_self (n := n - 1)
    omega

theorem log2Up_le {n k : Nat} (h : n ≤ 2 ^ k) : log2Up n ≤ k := by
  unfold log2Up
  split
  · exact Nat.zero_le _
  · have h0 : n - 1 ≠ 0 := by omega
    have : Nat.log2 (n - 1) < k := (Nat.log2_lt h0).2 (by omega)
    omega

end Sys2Proof.Machine
end

