-- ==== Sys2Proof/Laws/Encoding.lean ====
section
/-! SUPPORT. The fields of a command word (spec/30_encoding.md R56): what each field of an assembled word is, and that a word
with no reserved bit set is assembled from its fields. -/

namespace Sys2Proof

/-- Bit `i` of a command word (R56). -/
theorem commandWord_getLsbD (a : BitVec 32) (o : BitVec 4) (i : Nat) :
    (commandWord a o).getLsbD i =
      if i < 4 then o.getLsbD i else if i < 32 then false else a.getLsbD (i - 32) := by
  unfold commandWord
  rw [BitVec.getLsbD_append, BitVec.getLsbD_append]
  by_cases h1 : i < 4
  · simp [h1]
  · by_cases h2 : i < 32
    · simp [h1, h2, show i - 4 < 28 by omega]
    · simp [h1, h2, show ¬ i - 4 < 28 by omega, show i - 4 - 28 = i - 32 by omega]

theorem opc_commandWord (a : BitVec 32) (o : BitVec 4) (d : Word) : (Command.mk (commandWord a o) d).opc = o := by
  refine BitVec.eq_of_getLsbD_eq fun i hi => ?_
  simp [Command.opc, commandWord_getLsbD, hi]

theorem rsv_commandWord (a : BitVec 32) (o : BitVec 4) (d : Word) : (Command.mk (commandWord a o) d).rsv = 0 := by
  refine BitVec.eq_of_getLsbD_eq fun i hi => ?_
  simp [Command.rsv, commandWord_getLsbD, hi, show 4 + i < 32 by omega]

theorem arg_commandWord (a : BitVec 32) (o : BitVec 4) (d : Word) : (Command.mk (commandWord a o) d).arg = a := by
  refine BitVec.eq_of_getLsbD_eq fun i hi => ?_
  simp [Command.arg, commandWord_getLsbD, hi, show ¬ 32 + i < 4 by omega]

/-- A word whose reserved bits are 0 is assembled from its argument and its opcode. -/
theorem commandWord_parts {c : Command} (h : c.rsv = 0) : commandWord c.arg c.opc = c.cmd := by
  have hr : ∀ i, i < 28 → c.cmd.getLsbD (4 + i) = false := by
    intro i hi
    have := congrArg (fun x : BitVec 28 => x.getLsbD i) h
    simpa [Command.rsv, hi] using this
  refine BitVec.eq_of_getLsbD_eq fun i hi => ?_
  rw [commandWord_getLsbD]
  by_cases h1 : i < 4
  · simp [h1, Command.opc]
  · by_cases h2 : i < 32
    · have := hr (i - 4) (by omega)
      rw [show 4 + (i - 4) = i by omega] at this
      simp [h1, h2, this]
    · simp [h1, h2, Command.arg, show i - 32 < 32 by omega, show 32 + (i - 32) = i by omega]

theorem opc_eq_iff (c : Command) {n : Nat} (hn : n < 16) : c.opc = BitVec.ofNat 4 n ↔ c.opc.toNat = n := by
  constructor
  · intro h
    rw [h, BitVec.toNat_ofNat]
    omega
  · rintro rfl
    exact BitVec.eq_of_toNat_eq (by simp)

/-- Everything a decoded command can be (R61): its opcode, its operands, and what the word had to satisfy. -/
theorem decode_cases {p : Params} {c : Command} {i : Instr} (h : decode p c = .instr i) :
    c.rsv = 0 ∧
    ((c.opc = 1 ∧ i = .config c.arg.toInt) ∨ (c.opc = 2 ∧ i = .record c.arg) ∨ (c.opc = 3 ∧ i = .query c.arg) ∨
     (c.opc = 4 ∧ i = .has c.arg) ∨ (c.opc = 5 ∧ p.debugCmds = true ∧ c.arg = 0 ∧ i = .age) ∨
     (c.opc = 6 ∧ p.debugCmds = true ∧ i = .rdword c.arg.toNat) ∨
     (c.opc = 7 ∧ p.debugCmds = true ∧ i = .wrword c.arg.toNat c.data) ∨
     (c.opc = 8 ∧ p.debugCmds = true ∧ c.arg = 0 ∧ i = .rdstat)) := by
  unfold decode at h
  split at h
  · cases h
  next hr =>
    refine ⟨by simpa using hr, ?_⟩
    split at h
    case _ ho => cases h; exact .inl ⟨(opc_eq_iff c (by decide)).2 ho, rfl⟩
    case _ ho => cases h; exact .inr (.inl ⟨(opc_eq_iff c (by decide)).2 ho, rfl⟩)
    case _ ho => cases h; exact .inr (.inr (.inl ⟨(opc_eq_iff c (by decide)).2 ho, rfl⟩))
    case _ ho => cases h; exact .inr (.inr (.inr (.inl ⟨(opc_eq_iff c (by decide)).2 ho, rfl⟩)))
    case _ ho =>
      unfold ifDebug ifNoArgument at h
      split at h
      · split at h
        · cases h
          exact .inr (.inr (.inr (.inr (.inl ⟨(opc_eq_iff c (by decide)).2 ho, ‹_›, ‹_›, rfl⟩))))
        · cases h
      · cases h
    case _ ho =>
      unfold ifDebug at h
      split at h
      · cases h
        exact .inr (.inr (.inr (.inr (.inr (.inl ⟨(opc_eq_iff c (by decide)).2 ho, ‹_›, rfl⟩)))))
      · cases h
    case _ ho =>
      unfold ifDebug at h
      split at h
      · cases h
        exact .inr (.inr (.inr (.inr (.inr (.inr (.inl ⟨(opc_eq_iff c (by decide)).2 ho, ‹_›, rfl⟩))))))
      · cases h
    case _ ho =>
      unfold ifDebug ifNoArgument at h
      split at h
      · split at h
        · cases h
          exact .inr (.inr (.inr (.inr (.inr (.inr (.inr ⟨(opc_eq_iff c (by decide)).2 ho, ‹_›, ‹_›, rfl⟩))))))
        · cases h
      · cases h
    · cases h

end Sys2Proof
end

