-- ==== Sys2Proof/Laws/Fields.lean ====
section
/-! SUPPORT. The laws of a counter inside a word (spec/20_memory.md R40 to R42): what writing one counter does to every
counter of the word, and that a word is its sixteen counters. -/

namespace Sys2Proof.Machine

theorem field_getLsbD (w : Word) (off j : Nat) :
    (field w off).getLsbD j = (decide (j < 4) && w.getLsbD (off + j)) := by
  simp [field, BitVec.getLsbD_setWidth, BitVec.getLsbD_ushiftRight]

theorem setfield_getLsbD (w : Word) (off : Nat) (c : Counter) (i : Nat) (hi : i < 64) :
    (setfield w off c).getLsbD i =
      if off ≤ i ∧ i < off + 4 then c.getLsbD (i - off) else w.getLsbD i := by
  have h15 : ∀ j : Nat, (0xF#64).getLsbD j = decide (j < 4) := by
    intro j
    by_cases hj : j < 4
    · interval_cases j <;> decide
    · simp only [hj, decide_false]
      exact BitVec.getLsbD_of_ge 0xF#4 j (by omega) ▸ by
        have : (0xF#64) = (0xF#4).setWidth 64 := by decide
        rw [this, BitVec.getLsbD_setWidth, BitVec.getLsbD_of_ge 0xF#4 j (by omega)]
        simp
  have hc : ∀ j : Nat, 4 ≤ j → c.getLsbD j = false := fun j hj => BitVec.getLsbD_of_ge c j hj
  unfold setfield
  rw [BitVec.getLsbD_or, BitVec.getLsbD_and, BitVec.getLsbD_not, BitVec.getLsbD_shiftLeft, BitVec.getLsbD_shiftLeft, h15,
    BitVec.getLsbD_setWidth]
  by_cases h1 : off ≤ i
  · by_cases h2 : i < off + 4
    · have : i - off < 4 := by omega
      have h3 : i - off < 64 := by omega
      simp [hi, h1, h2, this, h3, show ¬ i < off by omega]
    · have : ¬ (i - off < 4) := by omega
      simp [hi, h1, h2, this, hc (i - off) (by omega)]
  · have : i < off := by omega
    simp [hi, h1, this]

/-- Writing the counter in slot `k` changes that slot to `c` and no other slot (R41, R42). -/
theorem field_setfield (w : Word) (c : Counter) {k j : Nat} (hk : k < 16) (hj : j < 16) :
    field (setfield w (4 * k) c) (4 * j) = if j = k then c else field w (4 * j) := by
  apply BitVec.eq_of_getLsbD_eq
  intro b hb
  rw [field_getLsbD, setfield_getLsbD _ _ _ _ (by omega)]
  by_cases h : j = k
  · subst h
    simp [hb]
  · have : ¬ (4 * k ≤ 4 * j + b ∧ 4 * j + b < 4 * k + 4) := by omega
    rw [if_neg this, if_neg h, field_getLsbD]

/-- A word is its sixteen counters (R40). -/
theorem word_ext {w v : Word} (h : ∀ k, k < 16 → field w (4 * k) = field v (4 * k)) : w = v := by
  apply BitVec.eq_of_getLsbD_eq
  intro i hi
  have := congrArg (fun c : Counter => c.getLsbD (i % 4)) (h (i / 4) (by omega))
  simp only [field_getLsbD] at this
  have h4 : i % 4 < 4 := Nat.mod_lt _ (by omega)
  have h5 : 4 * (i / 4) + i % 4 = i := Nat.div_add_mod i 4
  simpa [h4, h5] using this

/-- Replacing a counter by itself changes nothing. -/
theorem setfield_field (w : Word) {k : Nat} (hk : k < 16) : setfield w (4 * k) (field w (4 * k)) = w := by
  refine word_ext fun j hj => ?_
  rw [field_setfield _ _ hk hj]
  split
  next h => rw [h]
  next => rfl

/-- One bit of the aging step: the top bit of each counter becomes 0 and every other bit is the one above it (R107). -/
theorem halveWord_getLsbD (w : Word) (i : Nat) (hi : i < 64) :
    (halveWord w).getLsbD i = (decide (i % 4 ≠ 3) && w.getLsbD (i + 1)) := by
  have hm : ∀ j : Fin 64, agingMask.getLsbD j = decide (j.val % 4 ≠ 3) := by decide
  unfold halveWord
  rw [BitVec.getLsbD_and, BitVec.getLsbD_ushiftRight, hm ⟨i, hi⟩, Bool.and_comm, Nat.add_comm]

/-- A counter above its maximum does not exist (R26). -/
theorem counter_le (c : Counter) : c.toNat ≤ 15 := by have := c.isLt; omega

theorem counter_succ_toNat {c : Counter} (h : c ≠ counterMax) : (c + 1).toNat = c.toNat + 1 := by
  have h1 := c.isLt
  have h2 : c.toNat ≠ 15 := fun h2 => h (BitVec.eq_of_toNat_eq h2)
  rw [BitVec.toNat_add, show (1 : Counter).toNat = 1 from rfl]
  omega

end Sys2Proof.Machine
end

