-- ==== Sys2Proof/Laws/Memory.lean ====
section
/-! SUPPORT. The laws of the counter table: a read after a write, a write leaves every other word alone, every operation
keeps the canonical form, and tables that read alike are equal. -/

namespace Sys2Proof.Machine.Memory

/-- Every index listed in `t` is above `i`. -/
abbrev above (i : Nat) (t : Memory) : Prop := ∀ c ∈ t, i < c.1

theorem wf_cons {j : Nat} {v : Word} {t : Memory} :
    Memory.wf ((j, v) :: t) = true ↔ v ≠ 0 ∧ above j t ∧ Memory.wf t = true := by
  simp [Memory.wf, above, and_assoc]

theorem read_eq_zero_of_above {i : Nat} {t : Memory} (h : above i t) : Memory.read t i = 0 := by
  induction t with
  | nil => rfl
  | cons c t ih =>
    obtain ⟨j, v⟩ := c
    have hj : i < j := h (j, v) (by simp)
    have : j ≠ i := by omega
    simp only [Memory.read, this, if_false]
    exact ih fun c hc => h c (by simp [hc])

theorem above_mono {i j : Nat} {t : Memory} (hij : i ≤ j) (h : above j t) : above i t :=
  fun c hc => Nat.lt_of_le_of_lt hij (h c hc)

theorem above_cons {i j : Nat} {v : Word} {t : Memory} (hij : i < j) (h : above j t) : above i ((j, v) :: t) :=
  fun c hc => by
    rcases List.mem_cons.1 hc with rfl | hc
    · exact hij
    · exact Nat.lt_trans hij (h c hc)

/-- Every index listed in `push i w t` is `i` or listed in `t`. -/
theorem mem_push {i : Nat} {w : Word} {t : Memory} {c : Nat × Word} (h : c ∈ push i w t) :
    c = (i, w) ∨ c ∈ t := by
  unfold push at h
  split at h
  · exact .inr h
  · simpa using h

theorem wf_push {i : Nat} {w : Word} {t : Memory} (ha : above i t) (h : Memory.wf t = true) :
    Memory.wf (push i w t) = true := by
  unfold push
  split
  · exact h
  · exact wf_cons.2 ⟨by assumption, ha, h⟩

theorem read_push_self {i : Nat} {w : Word} {t : Memory} (ha : above i t) : Memory.read (push i w t) i = w := by
  unfold push
  split
  · rw [read_eq_zero_of_above ha]; simp_all
  · simp [Memory.read]

theorem read_push_of_ne {i j : Nat} {w : Word} {t : Memory} (h : j ≠ i) :
    Memory.read (push i w t) j = Memory.read t j := by
  unfold push
  split
  · rfl
  · simp [Memory.read, h.symm]

/-- Every index listed after a write is the one written or was listed before. -/
theorem mem_write {t : Memory} {i : Nat} {w : Word} {c : Nat × Word} (h : c ∈ Memory.write t i w) :
    c = (i, w) ∨ c ∈ t := by
  induction t with
  | nil => exact mem_push h
  | cons d t ih =>
    obtain ⟨j, v⟩ := d
    simp only [Memory.write] at h
    split at h
    · exact mem_push h
    · split at h
      · exact (mem_push h).imp_right fun h => List.mem_cons_of_mem _ h
      · rcases List.mem_cons.1 h with rfl | h
        · simp
        · exact (ih h).imp_right fun h => List.mem_cons_of_mem _ h

/-- A write keeps the canonical form. -/
theorem wf_write {t : Memory} (i : Nat) (w : Word) (h : Memory.wf t = true) : Memory.wf (Memory.write t i w) = true := by
  induction t with
  | nil => exact wf_push (by simp [above]) h
  | cons d t ih =>
    obtain ⟨j, v⟩ := d
    obtain ⟨hv, ha, ht⟩ := wf_cons.1 h
    simp only [Memory.write]
    split
    next hij => exact wf_push (above_cons hij ha) h
    next hij =>
      split
      next heq => exact wf_push (heq ▸ ha) ht
      next hne =>
        refine wf_cons.2 ⟨hv, fun c hc => ?_, ih ht⟩
        rcases mem_write hc with rfl | hc
        · simp only; omega
        · exact ha c hc

/-- A read after a write to the same word gives the word written. -/
theorem read_write_self {t : Memory} (i : Nat) (w : Word) (h : Memory.wf t = true) :
    Memory.read (Memory.write t i w) i = w := by
  induction t with
  | nil => exact read_push_self (by simp [above])
  | cons d t ih =>
    obtain ⟨j, v⟩ := d
    obtain ⟨-, ha, ht⟩ := wf_cons.1 h
    simp only [Memory.write]
    split
    next hij => exact read_push_self (above_cons hij ha)
    next hij =>
      split
      next heq => exact read_push_self (heq ▸ ha)
      next hne => simp only [Memory.read, Ne.symm hne, if_false]; exact ih ht

/-- A write leaves every other word alone. -/
theorem read_write_of_ne {t : Memory} {i j : Nat} (w : Word) (h : j ≠ i) :
    Memory.read (Memory.write t i w) j = Memory.read t j := by
  induction t with
  | nil => exact read_push_of_ne h
  | cons d t ih =>
    obtain ⟨k, v⟩ := d
    simp only [Memory.write]
    split
    · exact read_push_of_ne h
    · split
      next heq => rw [read_push_of_ne h]; simp [Memory.read, ← heq, h.symm]
      next hne => simp only [Memory.read]; split <;> simp_all

theorem read_write {t : Memory} (i j : Nat) (w : Word) (h : Memory.wf t = true) :
    Memory.read (Memory.write t i w) j = if j = i then w else Memory.read t j := by
  split
  next heq => rw [heq]; exact read_write_self i w h
  next hne => exact read_write_of_ne w hne

@[simp] theorem halveWord_zero : halveWord 0#64 = 0#64 := by decide

theorem mem_halveBelow {L : Nat} {t : Memory} {c : Nat × Word} (h : c ∈ Memory.halveBelow L t) :
    ∃ d ∈ t, d.1 = c.1 := by
  induction t with
  | nil => cases h
  | cons d t ih =>
    obtain ⟨j, v⟩ := d
    rcases mem_push h with rfl | h
    · exact ⟨(j, v), by simp, rfl⟩
    · obtain ⟨d, hd, he⟩ := ih h
      exact ⟨d, List.mem_cons_of_mem _ hd, he⟩

theorem above_halveBelow {L i : Nat} {t : Memory} (h : above i t) : above i (Memory.halveBelow L t) := fun c hc => by
  obtain ⟨d, hd, he⟩ := mem_halveBelow hc
  exact he ▸ h d hd

/-- The aging pass keeps the canonical form. -/
theorem wf_halveBelow {t : Memory} (L : Nat) (h : Memory.wf t = true) : Memory.wf (Memory.halveBelow L t) = true := by
  induction t with
  | nil => rfl
  | cons d t ih =>
    obtain ⟨j, v⟩ := d
    obtain ⟨-, ha, ht⟩ := wf_cons.1 h
    exact wf_push (above_halveBelow ha) (ih ht)

/-- The aging pass halves each word below `L` and leaves the others (R105). -/
theorem read_halveBelow {t : Memory} (L i : Nat) (h : Memory.wf t = true) :
    Memory.read (Memory.halveBelow L t) i = if i < L then halveWord (Memory.read t i) else Memory.read t i := by
  induction t with
  | nil => simp [Memory.halveBelow, Memory.read]
  | cons d t ih =>
    obtain ⟨j, v⟩ := d
    obtain ⟨-, ha, ht⟩ := wf_cons.1 h
    rw [Memory.halveBelow]
    by_cases hij : i = j
    · subst hij
      rw [read_push_self (above_halveBelow ha)]
      simp [Memory.read]
    · rw [read_push_of_ne hij, ih ht]
      simp [Memory.read, Ne.symm hij]

/-- Two tables in canonical form that read alike are the same list. -/
theorem ext {t u : Memory} (ht : Memory.wf t = true) (hu : Memory.wf u = true)
    (h : ∀ i, Memory.read t i = Memory.read u i) : t = u := by
  induction t generalizing u with
  | nil =>
    cases u with
    | nil => rfl
    | cons d u =>
      obtain ⟨j, v⟩ := d
      have := h j
      simp only [Memory.read, if_true] at this
      exact absurd this.symm (wf_cons.1 hu).1
  | cons c t ih =>
    obtain ⟨i, v⟩ := c
    obtain ⟨hv, hat, hwt⟩ := wf_cons.1 ht
    cases u with
    | nil =>
      have := h i
      simp only [Memory.read, if_true] at this
      exact absurd this hv
    | cons d u =>
      obtain ⟨j, x⟩ := d
      obtain ⟨hx, hau, hwu⟩ := wf_cons.1 hu
      have hij : i = j := by
        have h1 := h i
        have h2 := h j
        simp only [Memory.read, if_true] at h1 h2
        rcases Nat.lt_trichotomy i j with hlt | heq | hgt
        · rw [if_neg (by omega), read_eq_zero_of_above (above_mono hlt.le hau)] at h1
          exact absurd h1 hv
        · exact heq
        · rw [if_neg (by omega), read_eq_zero_of_above (above_mono hgt.le hat)] at h2
          exact absurd h2.symm hx
      subst hij
      have hvx : v = x := by simpa [Memory.read] using h i
      subst hvx
      congr 1
      refine ih hwt hwu fun k => ?_
      by_cases hk : i = k
      · subst hk; rw [read_eq_zero_of_above hat, read_eq_zero_of_above hau]
      · simpa [Memory.read, hk] using h k

end Sys2Proof.Machine.Memory
end

