-- ==== Sys2Proof/Laws/Record.lean ====
section
/-! SUPPORT. What one lane does to every counter (spec/41_record.md R91), and what the loop of lanes does over addresses
that differ from each other. -/

namespace Sys2Proof.Machine

/-- A lane keeps the canonical form of the table. -/
theorem lane_wf {t : Memory} {f : Bool} (a : CounterAddr) (h : t.wf = true) : (lane (t, f) a).1.wf = true := by
  unfold lane
  split
  · exact h
  · exact Memory.wf_write _ _ h

/-- A lane changes the counter at its own address, by one, and only if it is below 15. -/
theorem lane_counter {t : Memory} {f : Bool} {a b : CounterAddr} (h : t.wf = true) (ha : a.valid) (hb : b.valid) :
    (lane (t, f) a).1.counter b = if b = a ∧ t.counter a ≠ counterMax then t.counter a + 1 else t.counter b := by
  unfold lane
  split
  next hmax => rw [if_neg fun hh => hh.2 hmax]
  next hne =>
    obtain ⟨k, hk, hak⟩ := ha
    obtain ⟨j, hj, hbj⟩ := hb
    obtain ⟨ba, oa⟩ := a
    obtain ⟨bb, ob⟩ := b
    simp only at hak hbj
    subst hak hbj
    simp only [CounterAddr.mk.injEq, Memory.counter] at *
    rw [Memory.read_write _ _ _ h]
    by_cases hblk : bb = ba
    · subst hblk
      rw [if_pos rfl, field_setfield _ _ hk hj]
      by_cases hkj : j = k
      · subst hkj
        rw [if_pos rfl, if_pos ⟨⟨rfl, rfl⟩, hne⟩]
      · rw [if_neg hkj, if_neg (by omega)]
    · rw [if_neg hblk, if_neg (by simp [hblk])]

/-- The flag after a lane. -/
theorem lane_flag (t : Memory) (f : Bool) (a : CounterAddr) :
    (lane (t, f) a).2 = (f || decide (t.counter a ≠ counterMax)) := by
  unfold lane
  split <;> simp_all

theorem foldl_lane {as : List CounterAddr} {t : Memory} {f : Bool} (h : t.wf = true) (hv : ∀ a ∈ as, a.valid)
    (hn : as.Nodup) :
    (as.foldl lane (t, f)).1.wf = true ∧
    (∀ b : CounterAddr, b.valid → (as.foldl lane (t, f)).1.counter b =
      if b ∈ as ∧ t.counter b ≠ counterMax then t.counter b + 1 else t.counter b) ∧
    (as.foldl lane (t, f)).2 = (f || as.any fun a => decide (t.counter a ≠ counterMax)) := by
  induction as generalizing t f with
  | nil => simp [h]
  | cons a as ih =>
    obtain ⟨hna, hn⟩ := List.nodup_cons.1 hn
    have hva : a.valid := hv a (by simp)
    have hvs : ∀ b ∈ as, b.valid := fun b hb => hv b (by simp [hb])
    have hw := lane_wf (f := f) a h
    have hstep : lane (t, f) a = ((lane (t, f) a).1, (lane (t, f) a).2) := rfl
    rw [List.foldl_cons, hstep]
    obtain ⟨h1, h2, h3⟩ := ih (t := (lane (t, f) a).1) (f := (lane (t, f) a).2) hw hvs hn
    refine ⟨h1, fun b hb => ?_, ?_⟩
    · rw [h2 b hb, lane_counter h hva hb]
      by_cases hba : b = a
      · subst hba
        simp [hna]
      · simp [hba]
    · rw [h3, lane_flag, List.any_cons, Bool.or_assoc]
      congr 2
      rw [Bool.eq_iff_iff, List.any_eq_true, List.any_eq_true]
      refine exists_congr fun b => and_congr_right fun hb => ?_
      rw [lane_counter h hva (hvs b hb)]
      have : b ≠ a := fun e => hna (e ▸ hb)
      simp [this]

/-- The four addresses of a hash are distinct (R81). -/
theorem addrgen_distinct (p : Params) (l : BitVec 5) (h : Hash) : (addrgen p l h).Pairwise (· ≠ ·) := by
  have : rows.Pairwise (· ≠ ·) := by decide
  refine List.Pairwise.map _ (fun r r' hne e => hne ?_) this
  exact offset_injective h (congrArg CounterAddr.offset e)

/-- Everything the loop of lanes does for one hash: it keeps the canonical form, each of the four counters rises by one
unless it is 15, every other counter is left, and the flag says whether one rose. -/
theorem recordLanes_spec (t : Memory) (p : Params) (l : BitVec 5) (h : Hash) (hw : t.wf = true) :
    (recordLanes t (addrgen p l h)).1.wf = true ∧
    (∀ b : CounterAddr, b.valid → (recordLanes t (addrgen p l h)).1.counter b =
      if b ∈ addrgen p l h ∧ t.counter b ≠ counterMax then t.counter b + 1 else t.counter b) ∧
    (recordLanes t (addrgen p l h)).2 = (addrgen p l h).any fun a => decide (t.counter a ≠ counterMax) := by
  have := foldl_lane (f := false) hw (fun a ha => valid_of_mem_addrgen ha) (addrgen_distinct p l h)
  simpa [recordLanes] using this

/-- Tables in canonical form with the same counters are the same. -/
theorem Memory.ext_counter {t u : Memory} (ht : t.wf = true) (hu : u.wf = true)
    (h : ∀ b : CounterAddr, b.valid → t.counter b = u.counter b) : t = u :=
  Memory.ext ht hu fun i => word_ext fun k hk => h ⟨i, 4 * k⟩ ⟨k, hk, rfl⟩

/-- The words listed after the lanes are words that were listed or words of the table. -/
theorem mem_foldl_lane {as : List CounterAddr} {t : Memory} {f : Bool} {c : Nat × Word}
    (h : c ∈ (as.foldl lane (t, f)).1) : (∃ d ∈ t, d.1 = c.1) ∨ ∃ a ∈ as, a.block = c.1 := by
  induction as generalizing t f with
  | nil => exact .inl ⟨c, h, rfl⟩
  | cons a as ih =>
    rw [List.foldl_cons, show lane (t, f) a = ((lane (t, f) a).1, (lane (t, f) a).2) from rfl] at h
    rcases ih h with ⟨d, hd, he⟩ | ⟨b, hb, he⟩
    · unfold lane at hd
      split at hd
      · exact .inl ⟨d, hd, he⟩
      · rcases Memory.mem_write hd with rfl | hd
        · exact .inr ⟨a, by simp, he⟩
        · exact .inl ⟨d, hd, he⟩
    · exact .inr ⟨b, by simp [hb], he⟩

end Sys2Proof.Machine
end

