-- ==== Sys2Proof/Laws/State.lean ====
section
/-! SUPPORT. What each named update of State leaves in each field, so that no proof unfolds a record update. -/

namespace Sys2Proof.Machine

section
variable (s : State) (st : Status) (w : Word) (i k : Nat) (rest : List HostInput)

@[simp] theorem State.respond_params : (s.respond st w).params = s.params := rfl
@[simp] theorem State.respond_table : (s.respond st w).table = s.table := rfl
@[simp] theorem State.respond_configured : (s.respond st w).configured = s.configured := rfl
@[simp] theorem State.respond_log2l : (s.respond st w).log2l = s.log2l := rfl
@[simp] theorem State.respond_size : (s.respond st w).size = s.size := rfl
@[simp] theorem State.respond_inbox : (s.respond st w).inbox = s.inbox := rfl
@[simp] theorem State.respond_response : (s.respond st w).response = some ⟨st, w⟩ := rfl

@[simp] theorem State.agingPass_params : s.agingPass.params = s.params := rfl
@[simp] theorem State.agingPass_table : s.agingPass.table = s.table.halveBelow s.tableLength := rfl
@[simp] theorem State.agingPass_configured : s.agingPass.configured = s.configured := rfl
@[simp] theorem State.agingPass_log2l : s.agingPass.log2l = s.log2l := rfl
@[simp] theorem State.agingPass_size : s.agingPass.size = s.size / 2 := rfl
@[simp] theorem State.agingPass_inbox : s.agingPass.inbox = s.inbox := rfl
@[simp] theorem State.agingPass_response : s.agingPass.response = s.response := rfl

@[simp] theorem State.configure_params : (s.configure k).params = s.params := rfl
@[simp] theorem State.configure_table : (s.configure k).table = [] := rfl
@[simp] theorem State.configure_configured : (s.configure k).configured = true := rfl
@[simp] theorem State.configure_log2l : (s.configure k).log2l = BitVec.ofNat 5 k := rfl
@[simp] theorem State.configure_size : (s.configure k).size = 0 := rfl
@[simp] theorem State.configure_inbox : (s.configure k).inbox = s.inbox := rfl
@[simp] theorem State.configure_response : (s.configure k).response = s.response := rfl

@[simp] theorem State.writeWord_params : (s.writeWord i w).params = s.params := rfl
@[simp] theorem State.writeWord_table : (s.writeWord i w).table = s.table.write i w := rfl
@[simp] theorem State.writeWord_configured : (s.writeWord i w).configured = s.configured := rfl
@[simp] theorem State.writeWord_log2l : (s.writeWord i w).log2l = s.log2l := rfl
@[simp] theorem State.writeWord_size : (s.writeWord i w).size = s.size := rfl
@[simp] theorem State.writeWord_inbox : (s.writeWord i w).inbox = s.inbox := rfl
@[simp] theorem State.writeWord_response : (s.writeWord i w).response = s.response := rfl

@[simp] theorem State.resetEngine_params : s.resetEngine.params = s.params := rfl
@[simp] theorem State.resetEngine_table : s.resetEngine.table = [] := rfl
@[simp] theorem State.resetEngine_configured : s.resetEngine.configured = false := rfl
@[simp] theorem State.resetEngine_log2l : s.resetEngine.log2l = 0 := rfl
@[simp] theorem State.resetEngine_size : s.resetEngine.size = 0 := rfl
@[simp] theorem State.resetEngine_inbox : s.resetEngine.inbox = s.inbox := rfl
@[simp] theorem State.resetEngine_response : s.resetEngine.response = none := rfl

@[simp] theorem State.withInbox_params : (s.withInbox rest).params = s.params := rfl
@[simp] theorem State.withInbox_table : (s.withInbox rest).table = s.table := rfl
@[simp] theorem State.withInbox_configured : (s.withInbox rest).configured = s.configured := rfl
@[simp] theorem State.withInbox_log2l : (s.withInbox rest).log2l = s.log2l := rfl
@[simp] theorem State.withInbox_size : (s.withInbox rest).size = s.size := rfl
@[simp] theorem State.withInbox_inbox : (s.withInbox rest).inbox = rest := rfl
@[simp] theorem State.withInbox_response : (s.withInbox rest).response = s.response := rfl

@[simp] theorem State.respond_tableLength : (s.respond st w).tableLength = s.tableLength := rfl
@[simp] theorem State.withInbox_tableLength : (s.withInbox rest).tableLength = s.tableLength := rfl
@[simp] theorem State.agingPass_tableLength : s.agingPass.tableLength = s.tableLength := rfl
@[simp] theorem State.writeWord_tableLength : (s.writeWord i w).tableLength = s.tableLength := rfl
@[simp] theorem State.respond_samplingSize : (s.respond st w).samplingSize = s.samplingSize := rfl
@[simp] theorem State.withInbox_samplingSize : (s.withInbox rest).samplingSize = s.samplingSize := rfl
@[simp] theorem State.agingPass_samplingSize : s.agingPass.samplingSize = s.samplingSize := rfl
@[simp] theorem State.writeWord_samplingSize : (s.writeWord i w).samplingSize = s.samplingSize := rfl

end

/-- A table has at least one word (R21). -/
theorem State.tableLength_pos (s : State) : 0 < s.tableLength := Nat.two_pow_pos _

end Sys2Proof.Machine
end

