-- ==== Sys2Proof/Laws/Exec.lean ====
section
/-! SUPPORT. What each meaning answers, case by case, and what every meaning leaves alone: later proofs cite these and unfold
no meaning. -/

namespace Sys2Proof.Machine

section
variable {s : State} {h : Hash} {i : Nat} {d : Word} {n : Int}

theorem execQuery_configured (hc : s.configured = true) :
    execQuery h s = .next (s.respond .ok (BitVec.ofNat 64 (s.estimate h))) := by
  simp [execQuery, hc]

theorem execQuery_unconfigured (hc : s.configured = false) : execQuery h s = raise .errNotConfigured s := by
  simp [execQuery, hc]

theorem execHas_configured (hc : s.configured = true) :
    execHas h s = .next (s.respond .ok (zextBool (decide (0 < s.estimate h)))) := by
  simp [execHas, hc]

theorem execHas_unconfigured (hc : s.configured = false) : execHas h s = raise .errNotConfigured s := by
  simp [execHas, hc]

theorem execAge_configured (hc : s.configured = true) : execAge s = .next (s.agingPass.respond .ok 0) := by
  simp [execAge, hc]

theorem execAge_unconfigured (hc : s.configured = false) : execAge s = raise .errNotConfigured s := by
  simp [execAge, hc]

theorem execRdWord_inRange (hc : s.configured = true) (hi : i < s.tableLength) :
    execRdWord i s = .next (s.respond .ok (s.table.read i)) := by
  simp [execRdWord, hc, State.indexInRange, hi]

theorem execRdWord_outOfRange (hc : s.configured = true) (hi : s.tableLength ≤ i) :
    execRdWord i s = raise .errIndexRange s := by
  simp [execRdWord, hc, State.indexInRange, hi]

theorem execRdWord_unconfigured (hc : s.configured = false) : execRdWord i s = raise .errNotConfigured s := by
  simp [execRdWord, hc]

theorem execWrWord_inRange (hc : s.configured = true) (hi : i < s.tableLength) :
    execWrWord i d s = .next ((s.writeWord i d).respond .ok 0) := by
  simp [execWrWord, hc, State.indexInRange, hi]

theorem execWrWord_outOfRange (hc : s.configured = true) (hi : s.tableLength ≤ i) :
    execWrWord i d s = raise .errIndexRange s := by
  simp [execWrWord, hc, State.indexInRange, hi]

theorem execWrWord_unconfigured (hc : s.configured = false) : execWrWord i d s = raise .errNotConfigured s := by
  simp [execWrWord, hc]

theorem execConfig_nonPositive (hn : n ≤ 0) : execConfig n s = raise .errInvalidCapacity s := by
  simp [execConfig, hn]

theorem execConfig_tooLarge (hn : 0 < n) (hl : s.params.lMax < nextPow2 n.toNat) :
    execConfig n s = raise .errCapacityTooLarge s := by
  simp [execConfig, show ¬ n ≤ 0 by omega, hl]

theorem execConfig_fits (hn : 0 < n) (hl : nextPow2 n.toNat ≤ s.params.lMax) :
    execConfig n s = .next ((s.configure (log2Up n.toNat)).respond .ok 0) := by
  simp [execConfig, show ¬ n ≤ 0 by omega, show ¬ s.params.lMax < nextPow2 n.toNat by omega]

theorem execRecord_unconfigured (hc : s.configured = false) : execRecord h s = raise .errNotConfigured s := by
  simp [execRecord, hc]

end

/-- The estimate is a lower bound of the four counters, it is one of them, and it is at most 15 (R115). -/
theorem State.estimate_spec (s : State) (h : Hash) :
    (∀ a ∈ s.addrs h, s.estimate h ≤ (s.table.counter a).toNat) ∧
    (∃ a ∈ s.addrs h, s.estimate h = (s.table.counter a).toNat) ∧ s.estimate h ≤ 15 := by
  unfold State.estimate minCounter State.addrs addrgen rows
  simp only [List.map_cons, List.map_nil, List.foldl_cons, List.foldl_nil, List.mem_cons, List.not_mem_nil, or_false]
  have b := fun r : Row => counter_le (s.table.counter ⟨block s.params s.log2l h r, offset h r⟩)
  have b0 := b 0
  have b1 := b 1
  have b2 := b 2
  have b3 := b 3
  refine ⟨?_, ?_, by omega⟩
  · rintro a (rfl | rfl | rfl | rfl) <;> omega
  · simp only [exists_eq_or_imp, exists_eq_left]
    omega

/-- Lanes whose counters are all 15 write nothing (R91). -/
theorem recordLanes_of_saturated {t : Memory} {as : List CounterAddr} (h : ∀ a ∈ as, t.counter a = counterMax) :
    recordLanes t as = (t, false) := by
  unfold recordLanes
  induction as with
  | nil => rfl
  | cons a as ih =>
    have ha : lane (t, false) a = (t, false) := by simp [lane, h a (by simp)]
    rw [List.foldl_cons, ha]
    exact ih fun b hb => h b (by simp [hb])

/-- The flag of the lanes says that the RECORD is successful (R92). -/
theorem recordLanes_flag {s : State} {h : Hash} (hw : s.table.wf = true) :
    (recordLanes s.table (s.addrs h)).2 = true ↔ s.recordSucceeds h := by
  rw [State.addrs, (recordLanes_spec s.table s.params s.log2l h hw).2.2]
  simp [State.recordSucceeds, State.addrs]

/-- The state after the lanes of a successful RECORD and the increment of `SIZE` (R91, R93). -/
def State.recorded (s : State) (h : Hash) : State :=
  { s with table := (recordLanes s.table (s.addrs h)).1, size := s.size + 1 }

@[simp] theorem State.recorded_tableLength (s : State) (h : Hash) : (s.recorded h).tableLength = s.tableLength := rfl
@[simp] theorem State.recorded_samplingSize (s : State) (h : Hash) : (s.recorded h).samplingSize = s.samplingSize := rfl

/-- The three things a RECORD of a configured engine can do (R90). -/
theorem execRecord_cases {s : State} {h : Hash} (hc : s.configured = true) (hw : s.table.wf = true) :
    (¬ s.recordSucceeds h ∧ execRecord h s = .next (s.respond .ok 0)) ∨
    (s.recordSucceeds h ∧ (s.size + 1).toNat ≠ s.samplingSize ∧
      execRecord h s = .next ((s.recorded h).respond .ok 1)) ∨
    (s.recordSucceeds h ∧ (s.size + 1).toNat = s.samplingSize ∧
      execRecord h s = .next ((s.recorded h).agingPass.respond .ok 3)) := by
  have hrec : execRecord h s =
      if (recordLanes s.table (s.addrs h)).2 then countSample { s with table := (recordLanes s.table (s.addrs h)).1 }
      else .next ({ s with table := (recordLanes s.table (s.addrs h)).1 }.respond .ok (recordResult false false)) := by
    rw [execRecord, if_neg (by simp [hc])]
  by_cases hs : s.recordSucceeds h
  · rw [if_pos ((recordLanes_flag hw).2 hs), countSample] at hrec
    by_cases he : (s.size + 1).toNat = s.samplingSize
    · rw [if_pos (by exact he), show recordResult true true = 3 by decide] at hrec
      exact .inr (.inr ⟨hs, he, hrec⟩)
    · rw [if_neg (by exact he), show recordResult true false = 1 by decide] at hrec
      exact .inr (.inl ⟨hs, he, hrec⟩)
  · have hall : ∀ a ∈ s.addrs h, s.table.counter a = counterMax := by
      intro a ha
      by_contra hne
      exact hs ⟨a, ha, hne⟩
    rw [recordLanes_of_saturated hall, show recordResult false false = 0 by decide] at hrec
    exact .inl ⟨hs, hrec⟩

/-- The canonical form after a RECORD's lanes. -/
theorem State.recorded_wf {s : State} (h : Hash) (hw : s.table.wf = true) : (s.recorded h).table.wf = true :=
  (recordLanes_spec s.table s.params s.log2l h hw).1

/-- Every counter after a RECORD's lanes (R91). -/
theorem State.recorded_counter {s : State} (h : Hash) (hw : s.table.wf = true) {b : CounterAddr} (hb : b.valid) :
    (s.recorded h).table.counter b =
      if b ∈ s.addrs h ∧ s.table.counter b ≠ counterMax then s.table.counter b + 1 else s.table.counter b :=
  (recordLanes_spec s.table s.params s.log2l h hw).2.1 b hb

/-- Below the sampling size of an instance, `SIZE + 1` does not wrap (R25). -/
theorem State.size_succ {s : State} (hi : s.Inv) (hc : s.configured = true) :
    (s.size + 1).toNat = s.size.toNat + 1 := by
  have h1 := hi.sampled hc
  have h2 := hi.fits hc
  have h3 := hi.params
  simp only [Params.wf, Params.sizesFit, Params.lMax, Bool.and_eq_true, decide_eq_true_eq] at h3
  have h4 : s.samplingSize ≤ s.params.sampleFactor * 2 ^ s.params.log2LMax :=
    Nat.mul_le_mul_left _ (Nat.pow_le_pow_right (by decide) h2)
  have h5 : s.params.sampleFactor * 2 ^ s.params.log2LMax ≤ 4294967295 := of_decide_eq_true h3.2.2
  rw [BitVec.toNat_add, show (1 : BitVec 32).toNat = 1 from rfl]
  omega

/-- What every meaning does: it goes on with a response, it touches neither the inbox nor the parameters, and a status other
than OK leaves the engine as it was with `RESULT = 0` (R60, R152). -/
theorem exec_next (i : Instr) (s : State) :
    ∃ t st r, exec i s = .next t ∧ t.response = some ⟨st, r⟩ ∧ t.inbox = s.inbox ∧ t.params = s.params ∧
      (st ≠ .ok → sameEngine s t ∧ r = 0) := by
  have hraise : ∀ st, ∃ t st' r, raise st s = .next t ∧ t.response = some ⟨st', r⟩ ∧ t.inbox = s.inbox ∧
      t.params = s.params ∧ (st' ≠ .ok → sameEngine s t ∧ r = 0) :=
    fun st => ⟨_, st, 0, rfl, rfl, rfl, rfl, fun _ => ⟨⟨rfl, rfl, rfl, rfl, rfl⟩, rfl⟩⟩
  cases i <;>
    simp only [exec, execConfig, execRecord, execQuery, execHas, execAge, execRdWord, execWrWord, execRdStat,
      countSample] <;>
    (repeat' split) <;>
    first
      | exact hraise _
      | exact ⟨_, _, _, rfl, rfl, rfl, rfl, fun h => absurd rfl h⟩

/-- What serving any input does to the inbox and the parameters: nothing. -/
theorem serveInput_next (x : HostInput) (s : State) :
    ∃ t, serveInput x s = .next t ∧ t.inbox = s.inbox ∧ t.params = s.params := by
  cases x with
  | issue c =>
    simp only [serveInput, serve]
    split
    · obtain ⟨t, st, r, h1, h2, h3, h4, h5⟩ := exec_next _ s
      exact ⟨t, h1, h3, h4⟩
    · exact ⟨_, rfl, rfl, rfl⟩
  | reset o => exact ⟨_, rfl, rfl, rfl⟩

/-- Everything a step can be: idle, a reset, a decoded command, or an illegal one. -/
theorem step_cases (s : State) :
    (s.inbox = [] ∧ step s = .next s) ∨
    (∃ o rest, s.inbox = .reset o :: rest ∧ step s = .next (s.withInbox rest).resetEngine) ∨
    (∃ c rest i, s.inbox = .issue c :: rest ∧ decode s.params c = .instr i ∧ step s = exec i (s.withInbox rest)) ∨
    (∃ c rest w, s.inbox = .issue c :: rest ∧ decode s.params c = .illegal w ∧
      step s = raise .errIllegal (s.withInbox rest)) := by
  unfold step
  match hs : s.inbox with
  | [] => exact .inl ⟨rfl, rfl⟩
  | .reset o :: rest => exact .inr (.inl ⟨o, rest, rfl, rfl⟩)
  | .issue c :: rest =>
    simp only [serveInput, serve, State.withInbox_params]
    cases hd : decode s.params c with
    | instr i => exact .inr (.inr (.inl ⟨c, rest, i, rfl, hd, rfl⟩))
    | illegal w => exact .inr (.inr (.inr ⟨c, rest, w, rfl, hd, rfl⟩))

end Sys2Proof.Machine
end

