-- ==== Sys2Proof/Laws/PerInstr.lean ====
section
/-! SUPPORT. Facts proved command by command. Family EncodesItsRow: the low half of a command's word, where spec/opcode_table.json
has the match of its row, is the row's match. -/

namespace Sys2Proof.Laws

/-- Bits 31..0 of the match of the command's row in spec/opcode_table.json. -/
def rowMatch : Instr → BitVec 32
  | .config _ => 0x00000001
  | .record _ => 0x00000002
  | .query _ => 0x00000003
  | .has _ => 0x00000004
  | .age => 0x00000005
  | .rdword _ => 0x00000006
  | .wrword _ _ => 0x00000007
  | .rdstat => 0x00000008

/-- The low half of a command word is its opcode widened with the reserved zeros (R56). -/
theorem low_half_commandWord (a : BitVec 32) (o : BitVec 4) : (commandWord a o).extractLsb' 0 32 = o.setWidth 32 := by
  refine BitVec.eq_of_getLsbD_eq fun i hi => ?_
  simp only [BitVec.getLsbD_extractLsb', Nat.zero_add, commandWord_getLsbD, BitVec.getLsbD_setWidth, hi, decide_true,
    Bool.true_and, if_true]
  split
  · rfl
  · exact (BitVec.getLsbD_of_ge o i (by omega)).symm

/-- A command's word has its row's match in bits 31..0 whatever its operands are. -/
def EncodesItsRow.Statement (i : Instr) : Prop := (encode i).cmd.extractLsb' 0 32 = rowMatch i

theorem EncodesItsRow.config (n : Int) : EncodesItsRow.Statement (.config n) := low_half_commandWord _ _
theorem EncodesItsRow.record (h : Hash) : EncodesItsRow.Statement (.record h) := low_half_commandWord _ _
theorem EncodesItsRow.query (h : Hash) : EncodesItsRow.Statement (.query h) := low_half_commandWord _ _
theorem EncodesItsRow.has (h : Hash) : EncodesItsRow.Statement (.has h) := low_half_commandWord _ _
theorem EncodesItsRow.age : EncodesItsRow.Statement .age := low_half_commandWord _ _
theorem EncodesItsRow.rdword (i : Nat) : EncodesItsRow.Statement (.rdword i) := low_half_commandWord _ _
theorem EncodesItsRow.wrword (i : Nat) (d : Word) : EncodesItsRow.Statement (.wrword i d) := low_half_commandWord _ _
theorem EncodesItsRow.rdstat : EncodesItsRow.Statement .rdstat := low_half_commandWord _ _

end Sys2Proof.Laws
end

