-- ==== Sys2Proof/Tests/Slice0.lean ====
section
/-! SUPPORT. The model's own tests. Every expected value is one of spec/95_test_vectors.md (its name is in the comment) or of
the rule named; the witnesses at the end show that the hypotheses of each statement can be met. -/

namespace Sys2Proof.Machine.Tests

/-- A configured default instance with `L = 2^k`. -/
def cfg (k : BitVec 5) (t : Memory) (size : BitVec 32) : State :=
  { State.reset with configured := true, log2l := k, table := t, size := size }

/-- What a test looks at: the status, the result, the table and `SIZE`. -/
def look (o : Result) : Option (Option Response × Memory × BitVec 32) :=
  (Result.state? o).map fun t => (t.response, t.table, t.size)

/-- The instance without the debug commands. -/
def noDebug : Params := { Params.default with debugCmds := false }

/-! ### WellFormed: one ill-formed term for each check -/

theorem test_wf_capacity_too_big : (Instr.config 2147483648).wf Params.default = false := by decide
theorem test_wf_capacity_too_small : (Instr.config (-2147483649)).wf Params.default = false := by decide
theorem test_wf_rdword_index : (Instr.rdword 4294967296).wf Params.default = false := by decide
theorem test_wf_wrword_index : (Instr.wrword 4294967296 0).wf Params.default = false := by decide
theorem test_wf_debug_absent : Instr.age.wf noDebug = false ∧ (Instr.rdword 0).wf noDebug = false ∧
    (Instr.wrword 0 0).wf noDebug = false ∧ Instr.rdstat.wf noDebug = false := by decide

/-! ### Decoding, words written out from R56 and R59 (the vectors of 95 section 2.2 and R70) -/

theorem test_decode_config : decode Params.default ⟨0x8000000000000001, 0⟩ = .instr (.config (-2147483648)) := by decide
theorem test_decode_record : decode Params.default ⟨0xFFFFFFFF00000002, 0⟩ = .instr (.record 0xFFFFFFFF) := by decide
theorem test_decode_query : decode Params.default ⟨0x1234567800000003, 0xFFFFFFFFFFFFFFFF⟩ = .instr (.query 0x12345678) := by
  decide
theorem test_decode_has : decode Params.default ⟨0xDEADBEEF00000004, 0⟩ = .instr (.has 0xDEADBEEF) := by decide
theorem test_decode_age : decode Params.default ⟨5, 0⟩ = .instr .age ∧ decode noDebug ⟨5, 0⟩ = .illegal .debugAbsent := by
  decide
theorem test_decode_rdword : decode Params.default ⟨0xFFFFFFFF00000006, 0⟩ = .instr (.rdword 4294967295) := by decide
theorem test_decode_wrword : decode Params.default ⟨7, 0x9F⟩ = .instr (.wrword 0 0x9F) := by decide
theorem test_decode_rdstat : decode Params.default ⟨8, 0⟩ = .instr .rdstat := by decide
theorem test_decode_illegal :
    decode Params.default ⟨0, 0⟩ = .illegal .reservedOpcode ∧ decode Params.default ⟨0x10, 0⟩ = .illegal .reservedBits ∧
    decode Params.default ⟨0x80000002, 0⟩ = .illegal .reservedBits ∧
    decode Params.default ⟨9, 0⟩ = .illegal .reservedOpcode ∧ decode Params.default ⟨15, 0⟩ = .illegal .reservedOpcode ∧
    decode Params.default ⟨0x0000000100000005, 0⟩ = .illegal .argumentNotZero ∧
    decode Params.default ⟨0x0000000100000008, 0⟩ = .illegal .argumentNotZero := by decide
theorem test_table_word : decodeTableWord 64 0x1234567800000002 = some (.record 0x12345678) ∧
    decodeTableWord 32 0x1234567800000002 = some (.record 0) ∧
    decodeTableWord 128 0x000000000000009F0000000000000007 = some (.wrword 0 0x9F) := by decide
theorem test_fetch_word : look (step (State.reset.withFetchWord 64 0x0000000100000001)) = some (some ⟨.ok, 0⟩, [], 0) := by
  decide

/-! ### CONFIG (V-C6, V-C8, V-C13) -/

theorem test_config_129 : (Result.state? (execConfig 129 State.reset)).map State.statusWord = some 0x8000000800000000 := by
  decide
theorem test_config_refusals :
    look (execConfig 1048577 State.reset) = some (some ⟨.errCapacityTooLarge, 0⟩, [], 0) ∧
    look (execConfig 0 (cfg 2 [(3, 5)] 3)) = some (some ⟨.errInvalidCapacity, 0⟩, [(3, 5)], 3) := by decide

/-! ### RECORD (V-R4 and V-R5; V-R10 on the default seeds) -/

theorem test_record_partly_saturated_and_aging :
    look (execRecord 0 (cfg 0 [(0, 0xE0FF)] 0)) = some (some ⟨.ok, 1⟩, [(0, 0xF1FF)], 1) ∧
    look (execRecord 0 (cfg 0 [(0, 0x9999)] 9)) = some (some ⟨.ok, 3⟩, [(0, 0x5555)], 5) := by decide
theorem test_record_same_word_merge :
    look (execRecord 1 (cfg 1 [] 0)) = some (some ⟨.ok, 1⟩, [(0, 0x0000000001100000), (1, 0x0000000010010000)], 1) := by
  decide

/-! ### QUERY and HAS (V-Q1, V-Q6; V-Q4, V-Q7) -/

theorem test_query : look (execQuery 0 (cfg 0 [(0, 0x3213)] 0)) = some (some ⟨.ok, 1⟩, [(0, 0x3213)], 0) ∧
    look (execQuery 3 (cfg 0 [(0, 0xFFFF000000000000)] 0)) = some (some ⟨.ok, 15⟩, [(0, 0xFFFF000000000000)], 0) := by decide
theorem test_has : look (execHas 0 (cfg 0 [(0, 0x3213)] 0)) = some (some ⟨.ok, 1⟩, [(0, 0x3213)], 0) ∧
    look (execHas 3 (cfg 0 [(0, 0xFFF0000000000000)] 0)) = some (some ⟨.ok, 0⟩, [(0, 0xFFF0000000000000)], 0) := by decide

/-! ### AGE (V-A10, V-A2) -/

theorem test_age : look (execAge (cfg 1 [(0, 0xFFFFFFFFFFFFFFFF), (1, 0x123456789ABCDEF0)] 7)) =
    some (some ⟨.ok, 0⟩, [(0, 0x7777777777777777), (1, 0x0112233445566770)], 3) := by decide
theorem test_age_word_to_zero : look (execAge (cfg 0 [(0, 0x1111111111111111)] 1)) = some (some ⟨.ok, 0⟩, [], 0) := by decide

/-! ### RD_WORD, WR_WORD, RD_STAT (V-D2, V-D3; V-D4; V-D7) -/

theorem test_rdword : look (execRdWord 3 (cfg 2 [(3, 7)] 0)) = some (some ⟨.ok, 7⟩, [(3, 7)], 0) ∧
    look (execRdWord 4 (cfg 2 [(3, 7)] 0)) = some (some ⟨.errIndexRange, 0⟩, [(3, 7)], 0) := by decide
theorem test_wrword : look (execWrWord 0 0xFFFFFFFFFFFFFFFF (cfg 0 [] 4)) =
      some (some ⟨.ok, 0⟩, [(0, 0xFFFFFFFFFFFFFFFF)], 4) ∧
    look (execWrWord 0 0 (cfg 0 [(0, 5)] 4)) = some (some ⟨.ok, 0⟩, [], 4) := by decide
theorem test_rdstat : look (execRdStat (cfg 7 [] 1)) = some (some ⟨.ok, 0x8000000700000001⟩, [], 1) := by decide

/-! ### The addressing unit on the default seeds (95 section 2.1: `h = 0x80000000` at `L = 16`, zero- not sign-extended) -/

theorem test_addressing : addrgen Params.default 4 0x80000000 = [⟨3, 0⟩, ⟨9, 4⟩, ⟨7, 8⟩, ⟨2, 12⟩] := by decide

/-! ### Assembler text and the bus (R68, R69, R70; R43) -/

theorem test_assembler :
    assembleLine "  CONFIG -1 ; a comment".toList = .command ⟨0xFFFFFFFF00000001, 0⟩ ∧
    assembleLine "wrword 0, 0xF9".toList = .command ⟨7, 0xF9⟩ ∧
    assembleLine "get_frequency 7".toList = .command ⟨0x0000000700000003, 0⟩ ∧
    assembleLine "; nothing".toList = .blank ∧ assembleLine "record -1".toList = .refused ∧
    assembleLine "age 0".toList = .refused ∧ assembleLine "has 0x".toList = .refused := by decide
theorem test_bus : busBytes .bigEndian 0x0102030405060708 = [1, 2, 3, 4, 5, 6, 7, 8] := by decide

/-! ### Witnesses: for each statement with hypotheses, values that meet them all -/

/-- Hypotheses on a configured state that meets the invariant. -/
theorem inv_fresh (k : BitVec 5) (hk : k.toNat ≤ 20) : (cfg k [] 0).Inv where
  params := show Params.default.wf = true by decide
  canonical := rfl
  fits := fun _ => hk
  sampled := fun _ => Nat.mul_pos (show 0 < Params.default.sampleFactor by decide) (Nat.two_pow_pos _)
  within := fun _ _ h => by cases h
  unconfigured := fun h => by cases h
  precise := fun _ h => by cases h

theorem inv_nearly_full : (cfg 0 [(0, 0x9999)] 9).Inv := by constructor <;> decide
theorem inv_saturated : (cfg 0 [(0, 0xFFFF)] 9).Inv := by constructor <;> decide

/-- The least exponent of a number, from a computed value of `log2Up`. -/
theorem least_of_log2Up {n k : Nat} (e : log2Up n = k) : leastExponent n k :=
  ⟨e ▸ le_two_pow_log2Up n, fun _ h => e ▸ log2Up_le h⟩

theorem least_100 : leastExponent 100 7 := least_of_log2Up (by decide +kernel)
theorem least_top : leastExponent 1048576 20 := least_of_log2Up (by decide +kernel)
theorem least_above : leastExponent 1048577 21 := least_of_log2Up (by decide +kernel)
theorem least_one : leastExponent 1 0 := least_of_log2Up (by decide +kernel)

theorem witness_DecodeOfEncodeIsTheCommand : (Instr.config (-2147483648)).wf Params.default = true ∧
    (Instr.config 2147483647).wf Params.default = true ∧ (Instr.wrword 4294967295 1).wf Params.default = true := by decide

theorem witness_DecodedWordsAreEncodings :
    decode Params.default ⟨0x0000000300000007, 4⟩ = .instr (.wrword 3 4) ∧
    decode Params.default ⟨0x0000000300000001, 4⟩ = .instr (.config 3) := by decide

/-- One word for each clause of R151 at the ends of its range, and one legal word. -/
theorem witness_ExactlyTheIllegalWordsAnswerErrIllegal :
    (State.reset.withInbox [.issue ⟨0x12, 0⟩]).inbox = [.issue ⟨0x12, 0⟩] ∧
    illegalWord Params.default ⟨0x12, 0⟩ ∧ illegalWord Params.default ⟨0x80000002, 0⟩ ∧
    illegalWord Params.default ⟨0, 0⟩ ∧ illegalWord Params.default ⟨9, 0⟩ ∧ illegalWord Params.default ⟨15, 0⟩ ∧
    illegalWord Params.default ⟨0x0000000100000005, 0⟩ ∧ illegalWord Params.default ⟨0x8000000000000008, 0⟩ ∧
    illegalWord noDebug ⟨5, 0⟩ ∧ illegalWord noDebug ⟨8, 0⟩ ∧ ¬ illegalWord noDebug ⟨4, 0⟩ ∧
    ¬ illegalWord Params.default ⟨8, 0⟩ := by
  refine ⟨rfl, ?_, ?_, ?_, ?_, ?_, ?_, ?_, ?_, ?_, ?_, ?_⟩ <;> decide

theorem witness_DataReachesOnlyWrWord : (0x0000000100000006 : Word).extractLsb' 0 4 ≠ 0x7 ∧
    decode (cfg 1 [] 0).params ⟨0x0000000100000007, 0xF9⟩ = .instr (.wrword 1 0xF9) ∧ (cfg 1 [] 0).Inv ∧
    (cfg 1 [] 0).configured = true ∧ 1 < (cfg 1 [] 0).tableLength :=
  ⟨by decide, by decide, inv_fresh 1 (by decide), rfl, by decide⟩

theorem witness_TheExampleWordsDecode : Params.default.debugCmds = true := by decide

theorem witness_StatusCodesReadBack : 6 ≤ (0x6 : BitVec 4).toNat ∧ 6 ≤ (0xF : BitVec 4).toNat := by decide

theorem witness_StepRunsTheDecodedCommand :
    (State.reset.withInbox [.issue ⟨8, 0⟩]).inbox = [.issue ⟨8, 0⟩] ∧
    decode (State.reset.withInbox [.issue ⟨8, 0⟩]).params ⟨8, 0⟩ = .instr .rdstat := by decide

theorem witness_IdleEngineHoldsItsState : State.reset.inbox = [] := rfl

theorem witness_ResetSignalGivesTheResetValues :
    ((cfg 0 [(0, 1)] 3).withInbox [.reset (some ⟨2, 0⟩)]).inbox = [.reset (some ⟨2, 0⟩)] := rfl

theorem witness_EvenSeedsAreRefused :
    (∃ r : Row, (({ Params.default with seed3 := 2 } : Params).seed r).toNat % 2 = 0) ∧
    (∀ r : Row, (Params.default.seed r).toNat % 2 = 1) ∧ 1 ≤ Params.default.sampleFactor ∧
    Params.default.log2LMax ≤ 31 ∧ Params.default.sampleFactor * 2 ^ Params.default.log2LMax ≤ 2 ^ 32 - 1 ∧
    (∀ r : Row, (({ Params.default with sampleFactor := 0 } : Params).seed r).toNat % 2 = 1) := by decide

/-- A command that errs and one that does not. -/
theorem witness_ErrorsChangeNoState :
    (State.reset.withInbox [.issue ⟨2, 0⟩]).inbox = [.issue ⟨2, 0⟩] ∧
    look (step (State.reset.withInbox [.issue ⟨2, 0⟩])) = some (some ⟨.errNotConfigured, 0⟩, [], 0) := by decide

theorem witness_NonPositiveCapacityIsRefused : (0 : Int) ≤ 0 ∧ (-2147483648 : Int) ≤ 0 ∧
    (0x80000000 : BitVec 32).getLsbD 31 = true ∧ (0x7FFFFFFF : BitVec 32).getLsbD 31 = false := by decide

theorem witness_CapacityAboveTheStoreIsRefused :
    (1 : Int) ≤ 1048577 ∧ leastExponent (1048577 : Int).toNat 21 ∧ 2 ^ State.reset.params.log2LMax < 2 ^ 21 :=
  ⟨by decide, least_above, by decide +kernel⟩

theorem witness_ConfigMakesAZeroTable :
    State.reset.params.wf = true ∧ (1 : Int) ≤ 1048576 ∧ leastExponent (1048576 : Int).toNat 20 ∧
    2 ^ 20 ≤ 2 ^ State.reset.params.log2LMax ∧ (1 : Int) ≤ 1 ∧ leastExponent (1 : Int).toNat 0 ∧
    2 ^ 0 ≤ 2 ^ State.reset.params.log2LMax :=
  ⟨by decide, by decide, least_top, by decide +kernel, by decide, least_one, by decide +kernel⟩

theorem witness_NextPow2IsTheLeastPowerOfTwo : 1 ≤ 100 ∧ nextPow2 100 = 2 ^ 7 ∧ leastExponent 100 7 :=
  ⟨by decide, by decide +kernel, least_100⟩

theorem witness_ConfigDiscardsEveryCount :
    ∃ t, exec (.config 2) (cfg 1 [(0, 0xFFFF)] 9) = .next t ∧ t.response = some ⟨.ok, 0⟩ := ⟨_, rfl, rfl⟩

theorem witness_RecordRaisesItsCountersByOne :
    (cfg 4 [] 0).Inv ∧ (cfg 4 [] 0).configured = true ∧ (cfg 4 [] 0).recordSucceeds 1 ∧
    (cfg 4 [] 0).size.toNat + 1 ≠ (cfg 4 [] 0).samplingSize :=
  ⟨inv_fresh 4 (by decide), rfl, by unfold State.recordSucceeds; decide, by decide⟩

theorem witness_SaturatedRecordChangesNothing :
    (cfg 0 [(0, 0xFFFF)] 9).configured = true ∧ ¬ (cfg 0 [(0, 0xFFFF)] 9).recordSucceeds 0 ∧
    (cfg 0 [(0, 0x9999)] 9).configured = true ∧ (cfg 0 [(0, 0x9999)] 9).Inv ∧ (cfg 0 [(0, 0x9999)] 9).recordSucceeds 0 :=
  ⟨rfl, by unfold State.recordSucceeds; decide, rfl, inv_nearly_full, by unfold State.recordSucceeds; decide⟩

/-- The three clauses: not successful, successful below the threshold, successful at it. -/
theorem witness_SampleCountingAndTheTrigger :
    ((cfg 0 [(0, 0xFFFF)] 9).Inv ∧ ¬ (cfg 0 [(0, 0xFFFF)] 9).recordSucceeds 0) ∧
    ((cfg 4 [] 0).Inv ∧ (cfg 4 [] 0).recordSucceeds 1 ∧ (cfg 4 [] 0).size.toNat + 1 ≠ (cfg 4 [] 0).samplingSize) ∧
    ((cfg 0 [(0, 0x9999)] 9).Inv ∧ (cfg 0 [(0, 0x9999)] 9).recordSucceeds 0 ∧
      (cfg 0 [(0, 0x9999)] 9).size.toNat + 1 = (cfg 0 [(0, 0x9999)] 9).samplingSize) :=
  ⟨⟨inv_saturated, by unfold State.recordSucceeds; decide⟩,
   ⟨inv_fresh 4 (by decide), by unfold State.recordSucceeds; decide, by decide⟩,
   ⟨inv_nearly_full, by unfold State.recordSucceeds; decide, by decide⟩⟩

theorem witness_RecordAtTheThresholdAgesOnce :
    (cfg 0 [(0, 0x9999)] 9).Inv ∧ (cfg 0 [(0, 0x9999)] 9).configured = true ∧
    (cfg 0 [(0, 0x9999)] 9).recordSucceeds 0 ∧
    (cfg 0 [(0, 0x9999)] 9).size.toNat + 1 = (cfg 0 [(0, 0x9999)] 9).samplingSize :=
  ⟨inv_nearly_full, rfl, by unfold State.recordSucceeds; decide, by decide⟩

theorem witness_RecordResultBits : (cfg 0 [(0, 0x9999)] 9).Inv ∧ (cfg 0 [(0, 0x9999)] 9).configured = true :=
  ⟨inv_nearly_full, rfl⟩

theorem witness_ParallelLanesEqualTheLoop : Memory.wf [(0, 0xE0FF), (3, 1)] = true := by decide

theorem witness_LaneOrderDoesNotMatter : Memory.wf [(0, 0xE0FF)] = true ∧
    (addrgen Params.default 1 1).reverse.Perm (addrgen Params.default 1 1) := ⟨by decide, List.reverse_perm _⟩

/-- Program P6, lines 2 to 16: fifteen records of hash 3 at `L = 2`. -/
theorem witness_FifteenRecordsSaturate :
    (cfg 1 [] 0).Inv ∧ (cfg 1 [] 0).configured = true ∧
    runsQuietly (List.replicate 15 3) (cfg 1 [] 0)
      ((cfg 1 [(0, 0xFFFF000000000000)] 15).respond .ok 1) :=
  ⟨inv_fresh 1 (by decide), rfl, List.replicate 15 1, by decide +kernel, by simp⟩

theorem witness_RecordsNeverLowerAnEstimate :
    (cfg 0 [] 0).Inv ∧ (cfg 0 [] 0).configured = true ∧
    runsQuietly [0, 5] (cfg 0 [] 0) ((cfg 0 [(0, 0x11111111)] 2).respond .ok 1) :=
  ⟨inv_fresh 0 (by decide), rfl, [1, 1], by decide +kernel, by simp⟩

/-- Two records of hash 0 among records of hashes 1 and 2, which at `L = 1` share no counter with it (R79, R80). -/
theorem witness_CountMinBound :
    (cfg 0 [] 0).Inv ∧ (cfg 0 [] 0).configured = true ∧ (∀ i, i < (cfg 0 [] 0).tableLength → (cfg 0 [] 0).table.read i = 0) ∧
    runsQuietly [0, 1, 0, 2] (cfg 0 [] 0) ((cfg 0 [(0, 0x0000111111112222)] 4).respond .ok 1) ∧
    ∀ g ∈ ([0, 1, 0, 2] : List Hash), g ≠ 0 → ∀ a ∈ (cfg 0 [] 0).addrs 0, a ∉ (cfg 0 [] 0).addrs g :=
  ⟨inv_fresh 0 (by decide), rfl, fun _ _ => rfl, ⟨[1, 1, 1, 1], by decide +kernel, by simp⟩,
   List.forall_mem_cons.2 ⟨by decide +kernel, List.forall_mem_cons.2 ⟨by decide +kernel,
    List.forall_mem_cons.2 ⟨by decide +kernel, List.forall_mem_cons.2 ⟨by decide +kernel, fun _ h => by cases h⟩⟩⟩⟩⟩

/-- Program P2, lines 2 to 11: ten records after CONFIG at `L = 1`. -/
theorem witness_AgingComesExactlyAtTheThreshold :
    (cfg 0 [] 0).Inv ∧ (cfg 0 [] 0).configured = true ∧
    runRecords (List.replicate 9 0 ++ [0]) (cfg 0 [] 0) =
      some ((cfg 0 [(0, 0x5555)] 5).respond .ok 3, List.replicate 9 1 ++ [3]) ∧
    (3 : Word).getLsbD 0 = true ∧
    (List.replicate 9 (1 : Word)).countP (fun q => q.getLsbD 0) + 1 =
      (cfg 0 [] 0).samplingSize - (cfg 0 [] 0).size.toNat :=
  ⟨inv_fresh 0 (by decide), rfl, by decide +kernel, by decide, by decide⟩

theorem witness_AgeHalvesTheWholeTable : (cfg 0 [(0, 0x9999)] 9).Inv ∧ (cfg 0 [(0, 0x9999)] 9).configured = true ∧
    0 < (cfg 0 [(0, 0x9999)] 9).tableLength ∧ (cfg 0 [(0, 0x9999)] 9).tableLength ≤ 1 :=
  ⟨inv_nearly_full, rfl, by decide, by decide⟩

theorem witness_HalvingKeepsCountersApart : 0 < 16 ∧ 15 < 16 := by decide

theorem witness_CountersAreAtMostSevenAfterAging :
    (cfg 0 [(0, 0x9999)] 9).Inv ∧
    (∃ t, exec .age (cfg 0 [(0, 0x9999)] 9) = .next t ∧ t.response = some ⟨.ok, 0⟩) ∧
    (∃ t, exec (.record 0) (cfg 0 [(0, 0x9999)] 9) = .next t ∧ t.response = some ⟨.ok, 3⟩) ∧
    (3 : Word).getLsbD 1 = true :=
  ⟨inv_nearly_full, ⟨_, rfl, rfl⟩, ⟨_, rfl, by decide⟩, by decide⟩

theorem witness_AgingOrderIsNotObservable : Memory.wf [(0, 1), (1, 0xFF)] = true ∧ [1, 0].Perm (List.range 2) := by decide

theorem witness_QueryReturnsTheMinimum : (cfg 0 [(0, 0x3213)] 0).configured = true := rfl

theorem witness_HasAgreesWithQuery : (cfg 0 [(0, 0x3213)] 0).configured = true := rfl

/-- A hash with a zero counter and one without. -/
theorem witness_HasIsZeroExactlyWhenACounterIs : (cfg 0 [(0, 0x3213)] 0).configured = true ∧
    (∃ a ∈ (cfg 0 [(0, 0x3213)] 0).addrs 1, (cfg 0 [(0, 0x3213)] 0).table.counter a = 0) ∧
    (∀ a ∈ (cfg 0 [(0, 0x3213)] 0).addrs 0, (cfg 0 [(0, 0x3213)] 0).table.counter a ≠ 0) := by decide

theorem witness_ReadsHaveNoSideEffect : ∃ i : Instr, (∃ h, i = .query h) ∨ (∃ h, i = .has h) ∨ (∃ k, i = .rdword k) ∨
    i = .rdstat := ⟨.rdstat, .inr (.inr (.inr rfl))⟩

theorem witness_BlockIsTheFoldModuloTheLength :
    (0xc3a5c85c97cb3127 : Nat) = (Params.default.seed 0).toNat * (1 : Hash).toNat % 2 ^ 64 := by decide

theorem witness_BlockHasThe32BitForm : (0xc3a5c85c97cb3127 : Word) = Params.default.seed 0 * (1 : Hash).setWidth 64 := by
  decide

theorem witness_FourDistinctCounters : (0 : Row) ≠ 3 := by decide

theorem witness_SetfieldChangesOneCounter : 15 < 16 ∧ field 0xE000000000000000 (4 * 15) ≠ 15 := by decide

theorem witness_RdWordReturnsTheWord : (cfg 2 [(3, 7)] 0).configured = true ∧ 3 < (cfg 2 [(3, 7)] 0).tableLength := by decide

theorem witness_IndexAboveTheTableIsRefused :
    (cfg 2 [(3, 7)] 0).configured = true ∧ (cfg 2 [(3, 7)] 0).tableLength ≤ 4 ∧
    (cfg 2 [(3, 7)] 0).tableLength ≤ 4294967295 := by decide

theorem witness_WrWordWritesOneWord :
    (cfg 4 [] 0).Inv ∧ (cfg 4 [] 0).configured = true ∧ 15 < (cfg 4 [] 0).tableLength ∧ 0 < (cfg 4 [] 0).tableLength :=
  ⟨inv_fresh 4 (by decide), rfl, by decide, by decide⟩

theorem inv_reset : State.reset.Inv := by constructor <;> decide

theorem witness_RdStatReturnsTheStatusWord : State.reset.Inv ∧ State.reset.configured = false := ⟨inv_reset, rfl⟩

theorem witness_UnconfiguredEngineRefusesTableCommands : State.reset.configured = false := rfl

theorem witness_StepKeepsTheInvariant :
    ((cfg 0 [(0, 0x9999)] 9).withInbox [.issue ⟨2, 0⟩]).Inv ∧
    look (step ((cfg 0 [(0, 0x9999)] 9).withInbox [.issue ⟨2, 0⟩])) = some (some ⟨.ok, 3⟩, [(0, 0x5555)], 5) :=
  ⟨by constructor <;> decide, by decide⟩

theorem witness_ResetMeetsTheInvariant : Params.default.wf = true := by decide

theorem witness_OnlyConfigAndResetChangeTheLength :
    (∃ t, step (State.reset.withInbox [.issue ⟨0x0000000200000001, 0⟩]) = .next t ∧ t.log2l ≠ State.reset.log2l) ∧
    ∃ t, step ((cfg 1 [] 0).withInbox [.reset none]) = .next t ∧ t.configured ≠ (cfg 1 [] 0).configured :=
  ⟨⟨_, rfl, by decide⟩, ⟨_, rfl, by decide⟩⟩

theorem witness_SizeHasFourWriters :
    (∃ t, step ((cfg 0 [(0, 0x9999)] 9).withInbox [.issue ⟨2, 0⟩]) = .next t ∧ t.size ≠ 9) ∧
    (∃ t, step ((cfg 0 [(0, 0x9999)] 9).withInbox [.issue ⟨5, 0⟩]) = .next t ∧ t.size ≠ 9) ∧
    (∃ t, step ((cfg 0 [(0, 0x9999)] 9).withInbox [.issue ⟨0x0000000100000001, 0⟩]) = .next t ∧ t.size ≠ 9) ∧
    ∃ t, step ((cfg 0 [(0, 0x9999)] 9).withInbox [.reset none]) = .next t ∧ t.size ≠ 9 :=
  ⟨⟨_, rfl, by decide⟩, ⟨_, rfl, by decide⟩, ⟨_, rfl, by decide⟩, ⟨_, rfl, by decide⟩⟩

theorem witness_TableHasFiveWriters :
    (∃ t, step ((cfg 0 [(0, 1)] 9).withInbox [.issue ⟨7, 5⟩]) = .next t ∧ t.table ≠ [(0, 1)]) ∧
    ∃ t, step ((cfg 0 [(0, 1)] 9).withInbox [.reset none]) = .next t ∧ t.table ≠ [(0, 1)] :=
  ⟨⟨_, rfl, by decide⟩, ⟨_, rfl, by decide⟩⟩

theorem witness_StepsKeepTheParameters : ∃ t, step (State.reset.withInbox [.reset none]) = .next t := ⟨_, rfl⟩

theorem witness_LaterInputsDoNotReachEarlierOnes :
    ∃ u, Sys2Proof.core.run [HostInput.issue ⟨0x0000000100000001, 0⟩, .issue ⟨2, 0⟩].length
      (State.reset.withInbox [.issue ⟨0x0000000100000001, 0⟩, .issue ⟨2, 0⟩]) = .next u := ⟨_, rfl⟩

/-- Two states that differ in a word at index 5 of a table of length 1, and two unconfigured ones that differ in word 0. -/
theorem witness_WordsOutsideTheTableAreUnobservable :
    (Memory.wf [(5, 7)] = true ∧ agreeInside (cfg 0 [] 0) (cfg 0 [(5, 7)] 0) ∧ ∃ t, step (cfg 0 [] 0) = .next t) ∧
    agreeInside State.reset { State.reset with table := [(0, 7)] } := by
  refine ⟨⟨by decide, ⟨rfl, rfl, rfl, rfl, rfl, rfl, fun _ i hi => ?_⟩, _, rfl⟩, ⟨rfl, rfl, rfl, rfl, rfl, rfl, fun h => by cases h⟩⟩
  have : i = 0 := by
    have h1 : i < 1 := hi
    omega
  subst this
  decide

/-- The ends of each range of R68, and what some of those lines assemble to. -/
theorem witness_AssembledLinesDecodeToTheirCommand :
    ((-2 ^ 31 : Int) ≤ -2 ^ 31 ∧ (2 ^ 31 - 1 : Int) ≤ 2 ^ 31 - 1 ∧ (0 : Int) ≤ 2 ^ 32 - 1 ∧ (0 : Int) ≤ 2 ^ 64 - 1) ∧
    Params.default.debugCmds = true ∧
    (AsmLine.config (-2 ^ 31)).assemble = some ⟨0x8000000000000001, 0⟩ ∧
    (AsmLine.has (2 ^ 32 - 1)).assemble = some ⟨0xFFFFFFFF00000004, 0⟩ ∧
    (AsmLine.wrword 0 (2 ^ 64 - 1)).assemble = some ⟨7, 0xFFFFFFFFFFFFFFFF⟩ := by decide

theorem witness_AssemblerRangesAndPseudos :
    (AsmLine.config (-2147483648)).assemble ≠ none ∧ (AsmLine.config 2147483648).assemble = none ∧
    (AsmLine.record 4294967295).assemble ≠ none ∧ (AsmLine.record 4294967296).assemble = none := by decide

theorem witness_BusBytesCarryTheWord : 7 < 8 := by decide

end Sys2Proof.Machine.Tests
end

section
/-! Settles O44 (spec/20_memory.md R41). The idea: a counter and the rest of its word have no bit in common, so writing a
counter adds it to the word in which that counter is 0; the increment of a counter below 15 then stays inside its slot. -/

namespace Sys2Proof.Machine

/-- The word with a counter cleared has no bit in common with a counter at that offset. -/
theorem setfield_zero_and_counter (w : Word) (off : Nat) (c : Counter) :
    setfield w off 0 &&& (c.setWidth 64 <<< off) = 0#64 := by
  apply BitVec.eq_of_getLsbD_eq
  intro i hi
  rw [BitVec.getLsbD_and, setfield_getLsbD _ _ _ _ hi, BitVec.getLsbD_shiftLeft, BitVec.getLsbD_setWidth]
  by_cases hlow : off ≤ i
  · by_cases hin : i < off + 4
    · simp [hlow, hin]
    · simp [hin, BitVec.getLsbD_of_ge c (i - off) (by omega)]
  · simp [show i < off by omega]

/-- Writing a counter adds it to the word in which that counter is 0: the two never overlap, so nothing carries. -/
theorem setfield_eq_add (w : Word) (off : Nat) (c : Counter) :
    setfield w off c = setfield w off 0 + (c.setWidth 64 <<< off) := by
  rw [BitVec.add_eq_or_of_and_eq_zero _ _ (setfield_zero_and_counter w off c)]
  simp [setfield]

/-- A counter below its maximum does not wrap when raised, so widening commutes with the increment. -/
theorem counter_succ_setWidth {c : Counter} (h : c ≠ counterMax) : (c + 1).setWidth 64 = c.setWidth 64 + 1#64 := by
  have hc := c.isLt
  apply BitVec.eq_of_toNat_eq
  simp only [BitVec.toNat_add, BitVec.toNat_setWidth, BitVec.toNat_ofNat, counter_succ_toNat h]
  omega

/-- Raising a counter below 15 is an addition at its offset (R41). -/
theorem setfield_succ (w : Word) {k : Nat} (hk : k < 16) (h : field w (4 * k) ≠ counterMax) :
    setfield w (4 * k) (field w (4 * k) + 1) = w + (1#64 <<< (4 * k)) := by
  calc setfield w (4 * k) (field w (4 * k) + 1)
      = setfield w (4 * k) 0 + (((field w (4 * k)).setWidth 64 + 1#64) <<< (4 * k)) := by
        rw [setfield_eq_add, counter_succ_setWidth h]
    _ = setfield w (4 * k) (field w (4 * k)) + (1#64 <<< (4 * k)) := by
        rw [BitVec.shiftLeft_add_distrib, ← BitVec.add_assoc, ← setfield_eq_add]
    _ = w + (1#64 <<< (4 * k)) := by rw [setfield_field w hk]

/-- Settles O44: the first half is the law of `setfield` on the sixteen slots, the add form is `setfield_succ`. -/
theorem setfieldChangesOneCounter : Obligations.SetfieldChangesOneCounter := by
  intro w k hk
  exact ⟨fun c j hj => field_setfield w c hk hj, setfield_succ w hk⟩

end Sys2Proof.Machine
end

section
/-! Settles O4 and O5 (spec/30_encoding.md R57, R70). The ideas: the decoder reads `DATA` in its arm for opcode 7 alone; and
decoding undoes encoding, so an example word decodes to its command because it is that command's encoding. -/

namespace Sys2Proof

/-- `DATA` does not reach what a command decodes as, unless its opcode is WR_WORD's (R57). -/
theorem decode_data_irrelevant (p : Params) {cmd : Word} (d d' : Word) (h : cmd.extractLsb' 0 4 ≠ 0x7) :
    decode p ⟨cmd, d⟩ = decode p ⟨cmd, d'⟩ := by
  have h7 : (cmd.extractLsb' 0 4).toNat ≠ 7 := fun e => h ((opc_eq_iff ⟨cmd, d⟩ (by decide)).2 e)
  simp only [decode, Command.rsv, Command.opc, Command.arg]
  generalize (cmd.extractLsb' 0 4).toNat = o at h7 ⊢
  congr 1
  split
  case h_7 => exact absurd rfl h7
  all_goals rfl

/-- The word WR_WORD writes is `DATA` (R57). -/
theorem data_of_decode_wrword {p : Params} {c : Command} {k : Nat} {e : Word}
    (h : decode p c = .instr (.wrword k e)) : e = c.data := by
  obtain ⟨-, h⟩ := decode_cases h
  simp only [Instr.wrword.injEq, reduceCtorEq, and_false, false_or, or_false] at h
  obtain ⟨-, -, -, he⟩ := h
  exact he

/-- A capacity in range is read back from its 32-bit argument (R58). -/
theorem toInt_ofInt_of_capacityFits {n : Int} (h : capacityFits n = true) : (BitVec.ofInt 32 n).toInt = n := by
  simp only [capacityFits, Bool.and_eq_true, decide_eq_true_eq] at h
  rw [BitVec.toInt_ofInt]
  exact Int.bmod_eq_of_le (by omega) (by omega)

/-- A word index in range is read back from its 32-bit argument (R58). -/
theorem toNat_ofNat_of_indexFits {i : Nat} (h : indexFits i = true) : (BitVec.ofNat 32 i).toNat = i := by
  simp only [indexFits, decide_eq_true_eq] at h
  rw [BitVec.toNat_ofNat]
  omega

theorem ifDebug_present {p : Params} (hp : p.debugCmds = true) (d : Decoded) : ifDebug p d = d := if_pos hp

/-- Decoding undoes encoding on every command the instance has (R56 to R59, R61). -/
theorem decode_encode {p : Params} {i : Instr} (h : i.wf p = true) : decode p (encode i) = .instr i := by
  simp only [encode, decode, rsv_commandWord, opc_commandWord, arg_commandWord]
  cases i with
  | config n => simp [Instr.opcode, Instr.argument, toInt_ofInt_of_capacityFits h]
  | record g => rfl
  | query g => rfl
  | has g => rfl
  | age => exact ifDebug_present h _
  | rdword k =>
    obtain ⟨hp, hk⟩ := Bool.and_eq_true_iff.1 h
    simp [Instr.opcode, Instr.argument, ifDebug_present hp, toNat_ofNat_of_indexFits hk]
  | wrword k e =>
    obtain ⟨hp, hk⟩ := Bool.and_eq_true_iff.1 h
    simp [Instr.opcode, Instr.argument, Instr.dataOperand, ifDebug_present hp, toNat_ofNat_of_indexFits hk]
  | rdstat => exact ifDebug_present h _

end Sys2Proof

namespace Sys2Proof.Machine

/-- WR_WORD in range leaves `DATA` in the word it names (R138). -/
theorem execWrWord_read {s : State} {k : Nat} (d : Word) (hi : s.Inv) (hc : s.configured = true)
    (hk : k < s.tableLength) : ∃ t, execWrWord k d s = .next t ∧ t.table.read k = d :=
  ⟨_, execWrWord_inRange hc hk, Memory.read_write_self k d hi.canonical⟩

theorem serve_of_decode {s : State} {c : Command} {i : Instr} (h : decode s.params c = .instr i) :
    serve c s = exec i s := by
  simp [serve, h]

/-- Settles O4: a command is served by what it decodes as, which `DATA` reaches for WR_WORD alone. -/
theorem dataReachesOnlyWrWord : Obligations.DataReachesOnlyWrWord := by
  intro s cmd d d'
  refine ⟨fun h => ?_, fun k e hd => ?_⟩
  · simp only [serve, decode_data_irrelevant s.params d d' h]
  · obtain rfl : e = d := data_of_decode_wrword hd
    refine ⟨rfl, fun hi hc hk => ?_⟩
    rw [serve_of_decode hd]
    exact execWrWord_read e hi hc hk

/-- Settles O5: each word is the encoding of its command, so `decode_encode` applies. -/
theorem theExampleWordsDecode : Obligations.TheExampleWordsDecode := by
  intro p hp
  have decodes : ∀ {c : Command} (i : Instr), encode i = c → i.wf p = true → decode p c = .instr i :=
    fun i hc hw => hc ▸ decode_encode hw
  have rdwordFits : (Instr.rdword 3).wf p = true := by simp [Instr.wf, hp, indexFits]
  have wrwordFits : (Instr.wrword 0 0xF9).wf p = true := by simp [Instr.wf, hp, indexFits]
  exact ⟨decodes (.config 100) (by decide) rfl, decodes (.config (-1)) (by decide) rfl,
    decodes (.record 0x12345678) (by decide) rfl, decodes (.query 7) (by decide) rfl,
    decodes (.has 0xDEADBEEF) (by decide) rfl, decodes .age (by decide) hp,
    decodes (.rdword 3) (by decide) rdwordFits, decodes (.wrword 0 0xF9) (by decide) wrwordFits,
    decodes .rdstat (by decide) hp⟩

end Sys2Proof.Machine
end

section
/-! Settles O38, O40, O41 and O42 (spec/40_addressing.md R76, R78, R80, R81). The ideas: the fold and the product are read
in natural-number arithmetic, where the mask by `L − 1` is a remainder; and an offset is four times a counter slot, which
differs from row to row. -/

namespace Sys2Proof.Machine

/-- The product of a row in natural-number arithmetic: widening the hash loses nothing (R75, R76). -/
theorem rowProduct_toNat (p : Params) (h : Hash) (r : Row) :
    (rowProduct p h r).toNat = (p.seed r).toNat * h.toNat % 2 ^ 64 := by
  have hwide : (h.setWidth 64).toNat = h.toNat := BitVec.toNat_setWidth_of_le (by decide)
  rw [rowProduct, BitVec.toNat_mul, hwide]

/-- The fold adds the high half of the product, modulo 2^64 (R76). -/
theorem foldHigh_toNat (m : Word) : (foldHigh m).toNat = (m.toNat + m.toNat / 2 ^ 32) % 2 ^ 64 := by
  rw [foldHigh, BitVec.toNat_add, BitVec.toNat_ushiftRight, Nat.shiftRight_eq_div_pow]

/-- A table of length 1 has word 0 alone, so no seed reaches a block index (R80). -/
theorem block_lengthOne (p : Params) (h : Hash) (r : Row) : block p 0 h r = 0 :=
  Nat.lt_one_iff.1 (block_lt p 0 h r)

/-- The row's offset from the first counter of its sub-block (R78). -/
theorem offset_eq_add (h : Hash) (r : Row) : offset h r = 16 * (h.toNat % 4) + 4 * r.val := by
  rw [offset_eq]
  omega

/-- Settles O38: the mask by `L − 1` is a remainder (`block_eq_mod`), here of the folded product as a natural number. -/
theorem blockIsTheFoldModuloTheLength : Obligations.BlockIsTheFoldModuloTheLength := by
  rintro p l h r m rfl
  refine ⟨?_, block_lt p l h r⟩
  rw [block_eq_mod, foldHigh_toNat, rowProduct_toNat]

/-- Settles O42: every block index is 0, and the offsets are those of the four rows in order. -/
theorem lengthOneNeedsNoSeeds : Obligations.LengthOneNeedsNoSeeds := by
  intro p h
  simp only [addrgen, rows, List.map_cons, List.map_nil, block_lengthOne, offset_eq_add]
  rfl

/-- Settles O40: an offset is four times one of the sixteen counter slots. -/
theorem offsetIsTheRowOfTheSubBlock : Obligations.OffsetIsTheRowOfTheSubBlock := by
  intro h r
  have hsub : (h.extractLsb' 0 2).toNat = h.toNat % 4 := BitVec.extractLsb'_toNat 0 2 h
  have hslot := slot_lt h r
  rw [hsub]
  refine ⟨offset_eq_add h r, ?_, ?_⟩
  · rw [offset_eq]; omega
  · rw [offset_eq, Nat.mul_mod_right]

/-- Settles O41: the offset alone tells the rows of one hash apart. -/
theorem fourDistinctCounters : Obligations.FourDistinctCounters := by
  intro p l h r r' hne
  have hoff : offset h r ≠ offset h r' := fun e => hne (offset_injective h e)
  exact ⟨hoff, fun e => hoff (congrArg CounterAddr.offset e)⟩

end Sys2Proof.Machine
end

section
/-! Settles O20, O21 and O23 (spec/41_record.md R92 to R94). The idea: whether a counter is below 15 and whether `SIZE + 1`
makes `S` choose one of three next states, one lemma each; what each says of the slots and of `SIZE` follows from the laws
of the lanes and of the aging pass. -/

namespace Sys2Proof.Machine

/-- A RECORD is unsuccessful when its four counters are all 15 (R92). -/
theorem State.not_recordSucceeds_iff {s : State} {h : Hash} :
    ¬ s.recordSucceeds h ↔ ∀ a ∈ s.addrs h, s.table.counter a = counterMax := by
  simp [State.recordSucceeds]

section
variable {s : State} {h : Hash}

/-- An unsuccessful RECORD, whatever the table (R92). -/
theorem execRecord_saturated (hc : s.configured = true) (hs : ¬ s.recordSucceeds h) :
    execRecord h s = .next (s.respond .ok 0) := by
  have hlanes := recordLanes_of_saturated (State.not_recordSucceeds_iff.1 hs)
  rw [execRecord, if_neg (by simp [hc]), hlanes]
  rfl

/-- A successful RECORD below the threshold (R93). -/
theorem execRecord_belowThreshold (hi : s.Inv) (hc : s.configured = true) (hs : s.recordSucceeds h)
    (hne : s.size.toNat + 1 ≠ s.samplingSize) : execRecord h s = .next ((s.recorded h).respond .ok 1) := by
  rw [← State.size_succ hi hc] at hne
  rcases execRecord_cases hc hi.canonical with ⟨hn, -⟩ | ⟨-, -, he⟩ | ⟨-, heq, -⟩
  · exact absurd hs hn
  · exact he
  · exact absurd heq hne

/-- A successful RECORD at the threshold (R93). -/
theorem execRecord_atThreshold (hi : s.Inv) (hc : s.configured = true) (hs : s.recordSucceeds h)
    (heq : s.size.toNat + 1 = s.samplingSize) :
    execRecord h s = .next ((s.recorded h).agingPass.respond .ok 3) := by
  rw [← State.size_succ hi hc] at heq
  rcases execRecord_cases hc hi.canonical with ⟨hn, -⟩ | ⟨-, hne, -⟩ | ⟨-, -, he⟩
  · exact absurd hs hn
  · exact absurd heq hne
  · exact he

/-- The lanes leave in every slot what R91 says. -/
theorem State.slotRecorded_recorded (hw : s.table.wf = true) (i : Nat) {k : Nat} (hk : k < 16) :
    s.slotRecorded h i k ((s.recorded h).slot i k) := by
  have hslot := State.recorded_counter (b := ⟨i, 4 * k⟩) h hw ⟨k, hk, rfl⟩
  refine ⟨fun hrise => ?_, fun hkeep => hslot.trans (if_neg hkeep)⟩
  exact (congrArg BitVec.toNat (hslot.trans (if_pos hrise))).trans (counter_succ_toNat hrise.2)

end

/-- Halving a word halves each of its counters (R107). -/
theorem field_halveWord (w : Word) {k : Nat} (hk : k < 16) :
    field (halveWord w) (4 * k) = field w (4 * k) >>> 1 := by
  apply BitVec.eq_of_getLsbD_eq
  intro j hj
  have htop : decide (j ≠ 3) = decide (1 + j < 4) := decide_eq_decide.2 (by omega)
  rw [field_getLsbD, halveWord_getLsbD _ _ (by omega), BitVec.getLsbD_ushiftRight, field_getLsbD,
    show (4 * k + j) % 4 = j by omega, show 4 * k + j + 1 = 4 * k + (1 + j) by omega, htop, decide_eq_true hj,
    Bool.true_and]

/-- The aging pass halves every counter of the table (R105). -/
theorem State.agingPass_slot {s : State} {i k : Nat} (hw : s.table.wf = true) (hi : i < s.tableLength) (hk : k < 16) :
    (s.agingPass.slot i k).toNat = (s.slot i k).toNat / 2 := by
  rw [State.slot, State.agingPass_table, Memory.read_halveBelow _ _ hw, if_pos hi, field_halveWord _ hk,
    BitVec.toNat_ushiftRight, Nat.shiftRight_one]
  rfl

/-- The aging pass halves `SIZE` (R106). -/
theorem State.agingPass_size_toNat (s : State) : s.agingPass.size.toNat = s.size.toNat / 2 := by
  rw [State.agingPass_size, BitVec.toNat_udiv]
  rfl

/-- A RECORD's lanes raise `SIZE` by one (R93). -/
theorem State.recorded_size_toNat {s : State} (h : Hash) (hi : s.Inv) (hc : s.configured = true) :
    (s.recorded h).size.toNat = s.size.toNat + 1 :=
  State.size_succ hi hc

/-- Settles O20: the successful cases of `execRecord_cases` answer 1 or 3; the other is `execRecord_saturated`. -/
theorem saturatedRecordChangesNothing : Obligations.SaturatedRecordChangesNothing := by
  intro s h hc
  refine ⟨fun hi hs => ?_, fun hn => execRecord_saturated hc hn⟩
  rcases execRecord_cases hc hi.canonical with ⟨hn, -⟩ | ⟨-, -, he⟩ | ⟨-, -, he⟩
  · exact absurd hs hn
  · exact ⟨_, 1, he, rfl, by decide⟩
  · exact ⟨_, 3, he, rfl, by decide⟩

/-- Settles O21: in each of the three cases the other two clauses are void. -/
theorem sampleCountingAndTheTrigger : Obligations.SampleCountingAndTheTrigger := by
  intro s h hi hc
  have hsize := State.recorded_size_toNat h hi hc
  by_cases hs : s.recordSucceeds h
  · by_cases heq : s.size.toNat + 1 = s.samplingSize
    · refine ⟨_, execRecord_atThreshold hi hc hs heq, fun hn => absurd hs hn, fun _ hne => absurd heq hne,
        fun _ _ => ⟨?_, fun i k hL hk => ⟨(s.recorded h).slot i k, ?_, ?_⟩⟩⟩
      · rw [State.respond_size, State.agingPass_size_toNat, hsize, heq]
      · exact State.slotRecorded_recorded hi.canonical i hk
      · exact State.agingPass_slot (State.recorded_wf h hi.canonical) hL hk
    · exact ⟨_, execRecord_belowThreshold hi hc hs heq, fun hn => absurd hs hn,
        fun _ _ => ⟨hsize, fun i k hk => State.slotRecorded_recorded hi.canonical i hk⟩, fun _ he => absurd he heq⟩
  · exact ⟨_, execRecord_saturated hc hs, fun _ => ⟨rfl, rfl⟩, fun h1 => absurd h1 hs, fun h1 => absurd h1 hs⟩

/-- A word below 4 has no bit from bit 2 up. -/
theorem getLsbD_of_lt_four {w : Word} (hw : w.toNat < 4) {j : Nat} (hj : 2 ≤ j) : w.getLsbD j = false :=
  Nat.testBit_lt_two_pow (Nat.lt_of_lt_of_le hw (Nat.pow_le_pow_right (n := 2) (by decide) hj))

/-- Settles O23: the three cases answer 0, 1 and 3. -/
theorem recordResultBits : Obligations.RecordResultBits := by
  intro s h hi hc
  by_cases hs : s.recordSucceeds h
  · by_cases heq : s.size.toNat + 1 = s.samplingSize
    · exact ⟨_, 3, execRecord_atThreshold hi hc hs heq, rfl, by simpa using hs, by simpa using ⟨hs, heq⟩, by decide,
        fun j => getLsbD_of_lt_four (by decide)⟩
    · exact ⟨_, 1, execRecord_belowThreshold hi hc hs heq, rfl, by simpa using hs, by simp [heq], by decide,
        fun j => getLsbD_of_lt_four (by decide)⟩
  · exact ⟨_, 0, execRecord_saturated hc hs, rfl, by simpa using hs, by simp [hs], by decide,
      fun j => getLsbD_of_lt_four (by decide)⟩

end Sys2Proof.Machine
end

section
/-! Settles O24 (spec/41_record.md R96, R97). The idea: both units leave in every word the merged word of the table as it
was. The loop does because a lane adds to its word alone (R41) and leaves the counters of the lanes after it; the parallel
unit does because it writes the merged word to every word a lane names, and any other word is its own merge. -/

namespace Sys2Proof.Machine

/-- A lane adds its addend to its word and leaves every other word (R91, R41). -/
theorem lane_read {t : Memory} {f : Bool} {a : CounterAddr} (hw : t.wf = true) (ha : a.valid) (i : Nat) :
    (lane (t, f) a).1.read i = if a.block = i then t.read i + laneAddend t a else t.read i := by
  obtain ⟨k, hk, hoff⟩ := ha
  by_cases hmax : t.counter a = counterMax
  · simp [lane, laneAddend, hmax]
  · have hraise : setfield (t.read a.block) a.offset (t.counter a + 1) = t.read a.block + (1#64 <<< a.offset) := by
      rw [Memory.counter, hoff] at hmax ⊢
      exact setfield_succ _ hk hmax
    simp only [lane, laneAddend, hmax, if_false, Memory.read_write _ _ _ hw, hraise, eq_comm (a := i)]
    split
    next hb => rw [hb]
    next => rfl

/-- A lane leaves the addend of every other counter (R91). -/
theorem laneAddend_lane {t : Memory} {f : Bool} {a b : CounterAddr} (hw : t.wf = true) (ha : a.valid) (hb : b.valid)
    (hne : b ≠ a) : laneAddend (lane (t, f) a).1 b = laneAddend t b := by
  simp only [laneAddend, lane_counter hw ha hb, hne, false_and, if_false]

/-- The first lane may write its word before the others merge theirs: distinct counters do not disturb each other. -/
theorem mergedWord_cons {t : Memory} {f : Bool} {a : CounterAddr} {as : List CounterAddr} (hw : t.wf = true)
    (ha : a.valid) (hv : ∀ b ∈ as, b.valid) (hn : a ∉ as) (i : Nat) :
    mergedWord t (a :: as) i = mergedWord (lane (t, f) a).1 as i := by
  rw [mergedWord, mergedWord, List.foldl_cons, lane_read hw ha]
  refine List.foldl_ext _ _ _ fun w b hb => ?_
  rw [laneAddend_lane hw ha (hv b hb) fun e => hn (e ▸ hb)]

/-- The sequential loop leaves the merged word in every word (R90, R97). -/
theorem read_foldl_lane {as : List CounterAddr} {t : Memory} {f : Bool} (hw : t.wf = true) (hv : ∀ a ∈ as, a.valid)
    (hn : as.Nodup) (i : Nat) : (as.foldl lane (t, f)).1.read i = mergedWord t as i := by
  induction as generalizing t f with
  | nil => rfl
  | cons a as ih =>
    obtain ⟨hna, hn⟩ := List.nodup_cons.1 hn
    obtain ⟨hva, hvs⟩ := List.forall_mem_cons.1 hv
    rw [mergedWord_cons (f := f) hw hva hvs hna, List.foldl_cons]
    exact ih (lane_wf a hw) hvs hn

/-- A word that no lane names is its own merge. -/
theorem mergedWord_of_not_named {t : Memory} {as : List CounterAddr} {i : Nat} (h : ∀ a ∈ as, a.block ≠ i) :
    mergedWord t as i = t.read i := by
  rw [mergedWord]
  generalize t.read i = w
  induction as with
  | nil => rfl
  | cons a as ih =>
    obtain ⟨ha, has⟩ := List.forall_mem_cons.1 h
    rw [List.foldl_cons, if_neg ha]
    exact ih has

/-- Writing words at the blocks of a list keeps the canonical form. -/
theorem wf_foldl_write {m : Memory} (g : Nat → Word) (as : List CounterAddr) (hw : m.wf = true) :
    (as.foldl (fun m a => m.write a.block (g a.block)) m).wf = true := by
  induction as generalizing m with
  | nil => exact hw
  | cons a as ih => exact ih (Memory.wf_write _ _ hw)

/-- Writing `g` at the blocks of a list leaves `g i` in word `i`, if `i` is one of them or word `i` held it before. -/
theorem read_foldl_write {m : Memory} (g : Nat → Word) {as : List CounterAddr} {i : Nat} (hw : m.wf = true)
    (hin : (∃ a ∈ as, a.block = i) ∨ m.read i = g i) :
    (as.foldl (fun m a => m.write a.block (g a.block)) m).read i = g i := by
  induction as generalizing m with
  | nil => simpa using hin
  | cons a as ih =>
    refine ih (Memory.wf_write _ _ hw) ?_
    by_cases ha : a.block = i
    · subst ha
      exact .inr (Memory.read_write_self _ _ hw)
    · rw [Memory.read_write_of_ne _ (Ne.symm ha)]
      simpa [ha] using hin

/-- The parallel unit leaves the merged word in every word (R97). -/
theorem read_parallelLanes {t : Memory} (as : List CounterAddr) (hw : t.wf = true) (i : Nat) :
    (parallelLanes t as).1.read i = mergedWord t as i := by
  refine read_foldl_write (mergedWord t as) hw ?_
  by_cases hnamed : ∃ a ∈ as, a.block = i
  · exact .inl hnamed
  · exact .inr (mergedWord_of_not_named fun a ha e => hnamed ⟨a, ha, e⟩).symm

/-- Settles O24: the tables read alike word by word, and the flags are the same by `recordLanes_spec`. -/
theorem parallelLanesEqualTheLoop : Obligations.ParallelLanesEqualTheLoop := by
  intro t p l h hw
  obtain ⟨hwf, -, hflag⟩ := recordLanes_spec t p l h hw
  refine Prod.ext (Memory.ext (wf_foldl_write _ _ hw) hwf fun i => ?_) hflag.symm
  rw [read_parallelLanes _ hw]
  exact (read_foldl_lane hw (fun _ => valid_of_mem_addrgen) (addrgen_distinct p l h) i).symm

end Sys2Proof.Machine
end

section
/-! Settles O26 and O27 (spec/41_record.md R99, R100). The idea: a run of RECORDs with no aging pass adds to each counter the
number of recorded hashes that use it, up to 15; this holds of one RECORD and of two runs in a row, so of every run. -/

namespace Sys2Proof.Machine

/-- What recording `hs` with no aging pass makes of `s` (R91): each counter has risen by the number of hashes of `hs` that
use it, up to 15, and the addressing is as it was. -/
structure quietlyRecorded (hs : List Hash) (s t : State) : Prop where
  params : t.params = s.params
  log2l : t.log2l = s.log2l
  configured : t.configured = s.configured
  canonical : t.table.wf = true
  counters : ∀ b : CounterAddr, b.valid →
    (t.table.counter b).toNat = min ((s.table.counter b).toNat + hs.countP fun g => decide (b ∈ s.addrs g)) 15

theorem quietlyRecorded.addrs_eq {hs : List Hash} {s t : State} (q : quietlyRecorded hs s t) (h : Hash) :
    t.addrs h = s.addrs h := by
  rw [State.addrs, State.addrs, q.params, q.log2l]

/-- Recording nothing. -/
theorem quietlyRecorded.nil {s : State} (hw : s.table.wf = true) : quietlyRecorded [] s s where
  params := rfl
  log2l := rfl
  configured := rfl
  canonical := hw
  counters _ _ := (min_eq_left (counter_le _)).symm

/-- Two runs in a row. -/
theorem quietlyRecorded.append {gs hs : List Hash} {s u t : State} (q : quietlyRecorded gs s u)
    (q' : quietlyRecorded hs u t) : quietlyRecorded (gs ++ hs) s t where
  params := q'.params.trans q.params
  log2l := q'.log2l.trans q.log2l
  configured := q'.configured.trans q.configured
  canonical := q'.canonical
  counters b hb := by
    have h1 := q.counters b hb
    have h2 := q'.counters b hb
    simp only [q.addrs_eq] at h2
    rw [List.countP_append]
    omega

/-- One RECORD's effect on a counter, in natural numbers: it rises by one, up to 15 (R91). -/
theorem State.recorded_counter_toNat {s : State} (h : Hash) (hw : s.table.wf = true) {b : CounterAddr} (hb : b.valid) :
    ((s.recorded h).table.counter b).toNat =
      min ((s.table.counter b).toNat + if b ∈ s.addrs h then 1 else 0) 15 := by
  have hle := counter_le (s.table.counter b)
  rw [State.recorded_counter h hw hb]
  by_cases hin : b ∈ s.addrs h
  · by_cases hmax : s.table.counter b = counterMax
    · simp [hmax, counterMax]
    · have hsucc := counter_succ_toNat hmax
      have hle' := counter_le (s.table.counter b + 1)
      simp only [hin, hmax, ne_eq, not_false_eq_true, and_self, if_true]
      omega
  · simp only [hin, false_and, if_false]
    omega

/-- The lanes of an unsuccessful RECORD leave the table (R92). -/
theorem State.recorded_table_of_saturated {s : State} {h : Hash} (hs : ¬ s.recordSucceeds h) :
    (s.recorded h).table = s.table :=
  congrArg Prod.fst (recordLanes_of_saturated (State.not_recordSucceeds_iff.1 hs))

/-- A RECORD that answers without bit 1 ran no aging pass: it leaves the table of its lanes, successful or not (R94). -/
theorem quietlyRecorded_of_execRecord {s u : State} {h : Hash} {r : Word} (hc : s.configured = true)
    (hw : s.table.wf = true) (he : execRecord h s = .next u) (hr : u.response = some ⟨.ok, r⟩)
    (hquiet : r.getLsbD 1 = false) : quietlyRecorded [h] s u := by
  have hcounters : ∀ b : CounterAddr, b.valid → ((s.recorded h).table.counter b).toNat =
      min ((s.table.counter b).toNat + [h].countP fun g => decide (b ∈ s.addrs g)) 15 := by
    intro b hb
    simpa [List.countP_cons] using State.recorded_counter_toNat h hw hb
  have hwf := State.recorded_wf h hw
  rcases execRecord_cases hc hw with ⟨hs, hx⟩ | ⟨-, -, hx⟩ | ⟨-, -, hx⟩ <;>
    obtain rfl := Host.Outcome.next.inj (he.symm.trans hx)
  · rw [State.recorded_table_of_saturated hs] at hcounters
    exact ⟨rfl, rfl, rfl, hw, hcounters⟩
  · exact ⟨rfl, rfl, rfl, hwf, hcounters⟩
  · obtain rfl : 3#64 = r := congrArg Response.result (Option.some.inj hr)
    exact absurd hquiet (by decide)

/-- The first RECORD of a quiet run completes with OK and without bit 1, and the rest of the run is quiet. -/
theorem runsQuietly_cons {h : Hash} {hs : List Hash} {s t : State} (hrun : runsQuietly (h :: hs) s t) :
    ∃ u r, execRecord h s = .next u ∧ u.response = some ⟨.ok, r⟩ ∧ r.getLsbD 1 = false ∧ runsQuietly hs u t := by
  obtain ⟨rs, hrun, hquiet⟩ := hrun
  obtain ⟨u, st, r, he, hr, -⟩ := exec_next (.record h) s
  simp only [runRecords, he, Result.state?, hr] at hrun
  split at hrun
  next hok =>
    obtain ⟨⟨t', rs'⟩, hrest, hpair⟩ := Option.map_eq_some_iff.1 hrun
    obtain ⟨rfl, rfl⟩ := Prod.mk.inj hpair
    obtain ⟨hr1, hrs⟩ := List.forall_mem_cons.1 hquiet
    exact ⟨u, r, he, hok ▸ hr, hr1, rs', hrest, hrs⟩
  next => cases hrun

/-- What a quiet run does. -/
theorem quietlyRecorded_of_runsQuietly {hs : List Hash} {s t : State} (hc : s.configured = true)
    (hw : s.table.wf = true) (hrun : runsQuietly hs s t) : quietlyRecorded hs s t := by
  induction hs generalizing s with
  | nil =>
    obtain ⟨rs, hrun, -⟩ := hrun
    obtain ⟨rfl, -⟩ := Prod.mk.inj (Option.some.inj hrun)
    exact .nil hw
  | cons h hs ih =>
    obtain ⟨u, r, he, hr, hquiet, hrest⟩ := runsQuietly_cons hrun
    have hfirst := quietlyRecorded_of_execRecord hc hw he hr hquiet
    exact hfirst.append (ih (hfirst.configured.trans hc) hfirst.canonical hrest)

/-- Settles O26: `n ≥ 15` recorded hashes use each of the four counters, so each is at 15. -/
theorem fifteenRecordsSaturate : Obligations.FifteenRecordsSaturate := by
  intro s t h n hi hc hn hrun
  have q := quietlyRecorded_of_runsQuietly hc hi.canonical hrun
  have hfull : ∀ a ∈ t.addrs h, t.table.counter a = 15 := by
    intro a ha
    have hcount := q.counters a (valid_of_mem_addrgen ha)
    rw [q.addrs_eq] at ha
    rw [List.countP_replicate, if_pos (decide_eq_true ha), min_eq_right (by omega)] at hcount
    exact BitVec.eq_of_toNat_eq hcount
  exact ⟨hfull, execRecord_saturated (q.configured.trans hc) (State.not_recordSucceeds_iff.2 hfull)⟩

/-- Settles O27: a quiet run only adds to a counter, and the estimate is one of the four. -/
theorem recordsNeverLowerAnEstimate : Obligations.RecordsNeverLowerAnEstimate := by
  intro s t hs hi hc hrun
  have q := quietlyRecorded_of_runsQuietly hc hi.canonical hrun
  have hmono : ∀ b : CounterAddr, b.valid → (s.table.counter b).toNat ≤ (t.table.counter b).toNat := by
    intro b hb
    rw [q.counters b hb]
    exact le_min (Nat.le_add_right _ _) (counter_le _)
  refine ⟨fun i k hk => hmono ⟨i, 4 * k⟩ ⟨k, hk, rfl⟩, fun h => ?_⟩
  obtain ⟨-, ⟨a, ha, hest⟩, -⟩ := t.estimate_spec h
  calc s.estimate h ≤ (s.table.counter a).toNat := (s.estimate_spec h).1 a (q.addrs_eq h ▸ ha)
    _ ≤ (t.table.counter a).toNat := hmono a (valid_of_mem_addrgen ha)
    _ = t.estimate h := hest.symm

end Sys2Proof.Machine
end

section
/-! Settles O29, O31 and O32 (spec/42_aging.md R107, R111, R112). The ideas: a halved counter is at most 7 since a counter
is at most 15, and a RECORD whose result has bit 1 ends in the pass; and as long as a run of RECORDs has fewer successes than
`S − SIZE`, each success only raises `SIZE` by one, so the success of that number is the one at the threshold. -/

namespace Sys2Proof.Machine

/-- Settles O31: the statement writes out `halveWord`, whose counters `field_halveWord` gives. -/
theorem halvingKeepsCountersApart : Obligations.HalvingKeepsCountersApart :=
  fun w _ hk => field_halveWord w hk

/-! ### Counters after a pass -/

/-- The aging pass leaves at most 7 in every counter of the table (R111). -/
theorem State.agingPass_slot_le {s : State} {i k : Nat} (hw : s.table.wf = true) (hi : i < s.tableLength)
    (hk : k < 16) : (s.agingPass.slot i k).toNat ≤ 7 := by
  have hle := counter_le (s.slot i k)
  rw [State.agingPass_slot hw hi hk]
  omega

/-- An estimate is one of the counters of the table, so it keeps a bound that they all keep (R115). -/
theorem State.estimate_le_of_slots {s : State} {n : Nat}
    (hslots : ∀ i k, i < s.tableLength → k < 16 → (s.slot i k).toNat ≤ n) (h : Hash) : s.estimate h ≤ n := by
  obtain ⟨-, ⟨⟨i, off⟩, ha, hest⟩, -⟩ := s.estimate_spec h
  obtain ⟨k, hk, rfl : off = 4 * k⟩ := valid_of_mem_addrgen ha
  rw [hest]
  exact hslots i k (block_lt_of_mem_addrgen ha) hk

/-- The result a command is seen to answer is the one it responded with. -/
theorem State.result_of_respond {s : State} {st st' : Status} {w r : Word}
    (hr : (s.respond st w).response = some ⟨st', r⟩) : r = w :=
  (congrArg Response.result (Option.some.inj hr)).symm

/-- A RECORD whose result says that it aged ends in the pass (R94, R95). -/
theorem aged_of_execRecord {s t : State} {h : Hash} {r : Word} (hc : s.configured = true) (hw : s.table.wf = true)
    (he : execRecord h s = .next t) (hr : t.response = some ⟨.ok, r⟩) (haged : r.getLsbD 1 = true) :
    t = (s.recorded h).agingPass.respond .ok 3 := by
  rcases execRecord_cases hc hw with ⟨-, hx⟩ | ⟨-, -, hx⟩ | ⟨-, -, hx⟩ <;>
    obtain rfl := Host.Outcome.next.inj (he.symm.trans hx)
  · obtain rfl := State.result_of_respond hr
    exact absurd haged (by decide)
  · obtain rfl := State.result_of_respond hr
    exact absurd haged (by decide)
  · rfl

/-- Settles O32: both commands end in a pass over a table in canonical form and a response. -/
theorem countersAreAtMostSevenAfterAging : Obligations.CountersAreAtMostSevenAfterAging := by
  intro s t i r hi hc he hr haged
  obtain ⟨u, w, hw, rfl⟩ : ∃ (u : State) (w : Word), u.table.wf = true ∧ t = u.agingPass.respond .ok w := by
    rcases haged with rfl | ⟨⟨h, rfl⟩, hbit⟩
    · exact ⟨s, 0, hi.canonical, Host.Outcome.next.inj (he.symm.trans (execAge_configured hc))⟩
    · exact ⟨s.recorded h, 3, State.recorded_wf h hi.canonical, aged_of_execRecord hc hi.canonical he hr hbit⟩
  have hslots : ∀ j k, j < u.tableLength → k < 16 → (u.agingPass.slot j k).toNat ≤ 7 :=
    fun j k => State.agingPass_slot_le hw
  exact ⟨hslots, State.estimate_le_of_slots hslots⟩

/-! ### Runs of RECORDs below the threshold -/

/-- An OK response is no part of the invariant. -/
theorem State.Inv.respond_ok {s : State} (hi : s.Inv) (w : Word) : (s.respond .ok w).Inv where
  params := hi.params
  canonical := hi.canonical
  fits := hi.fits
  sampled := hi.sampled
  within := hi.within
  unconfigured := hi.unconfigured
  precise _ hr hne := absurd (congrArg Response.status (Option.some.inj hr)).symm hne

/-- A RECORD's lanes and the increment of `SIZE` keep the invariant below the threshold (R25, R93). -/
theorem State.Inv.recorded {s : State} (hi : s.Inv) (hc : s.configured = true) (h : Hash)
    (hne : s.size.toNat + 1 ≠ s.samplingSize) : (s.recorded h).Inv where
  params := hi.params
  canonical := State.recorded_wf h hi.canonical
  fits := hi.fits
  sampled _ := by
    have hlt := hi.sampled hc
    rw [State.recorded_size_toNat h hi hc, State.recorded_samplingSize]
    omega
  within _ c hcell := by
    rcases mem_foldl_lane hcell with ⟨d, hd, heq⟩ | ⟨a, ha, heq⟩
    · exact heq ▸ hi.within hc d hd
    · exact heq ▸ block_lt_of_mem_addrgen ha
  unconfigured hn := absurd (hc.symm.trans hn) (by decide)
  precise := hi.precise

/-- What RECORDs with the results `rs` make of `s` while no pass runs: `SIZE` has risen by the number of successful ones. -/
structure sampledBelow (rs : List Word) (s u : State) : Prop where
  inv : u.Inv
  configured : u.configured = true
  samplingSize : u.samplingSize = s.samplingSize
  size : u.size.toNat = s.size.toNat + rs.countP fun q => q.getLsbD 0
  quiet : ∀ q ∈ rs, q.getLsbD 1 = false

/-- Two runs in a row. -/
theorem sampledBelow.append {rs rs' : List Word} {s u t : State} (a : sampledBelow rs s u) (b : sampledBelow rs' u t) :
    sampledBelow (rs ++ rs') s t where
  inv := b.inv
  configured := b.configured
  samplingSize := b.samplingSize.trans a.samplingSize
  size := by rw [b.size, a.size, List.countP_append, Nat.add_assoc]
  quiet := List.forall_mem_append.2 ⟨a.quiet, b.quiet⟩

/-- A RECORD that is unsuccessful or below the threshold (R92, R93). -/
theorem sampledBelow_of_execRecord {s u : State} {h : Hash} {r : Word} (hi : s.Inv) (hc : s.configured = true)
    (he : execRecord h s = .next u) (hr : u.response = some ⟨.ok, r⟩)
    (hbelow : r.getLsbD 0 = true → s.size.toNat + 1 ≠ s.samplingSize) : sampledBelow [r] s u := by
  rcases execRecord_cases hc hi.canonical with ⟨-, hx⟩ | ⟨-, hne, hx⟩ | ⟨-, heq, hx⟩ <;>
    obtain rfl := Host.Outcome.next.inj (he.symm.trans hx)
  · obtain rfl := State.result_of_respond hr
    exact ⟨hi.respond_ok 0, hc, rfl, rfl, by simp⟩
  · obtain rfl := State.result_of_respond hr
    rw [State.size_succ hi hc] at hne
    exact ⟨(hi.recorded hc h hne).respond_ok 1, hc, rfl, State.recorded_size_toNat h hi hc, by simp⟩
  · obtain rfl := State.result_of_respond hr
    exact absurd ((State.size_succ hi hc).symm.trans heq) (hbelow (by decide))

/-- The first RECORD of a run completes with OK, and the rest of the run follows it. -/
theorem runRecords_cons {h : Hash} {hs : List Hash} {s t : State} {ws : List Word}
    (hrun : runRecords (h :: hs) s = some (t, ws)) :
    ∃ u r rs, execRecord h s = .next u ∧ u.response = some ⟨.ok, r⟩ ∧ runRecords hs u = some (t, rs) ∧
      ws = r :: rs := by
  obtain ⟨u, st, r, he, hr, -⟩ := exec_next (.record h) s
  simp only [runRecords, he, Result.state?, hr] at hrun
  split at hrun
  next hok =>
    obtain ⟨⟨t', rs⟩, hrest, hpair⟩ := Option.map_eq_some_iff.1 hrun
    obtain ⟨rfl, rfl⟩ := Prod.mk.inj hpair
    exact ⟨u, r, rs, he, hok ▸ hr, hrest, rfl⟩
  next => cases hrun

/-- A run cut in two. -/
theorem runRecords_append {gs hs : List Hash} {s t : State} {ws : List Word}
    (hrun : runRecords (gs ++ hs) s = some (t, ws)) :
    ∃ u rs rs', runRecords gs s = some (u, rs) ∧ runRecords hs u = some (t, rs') ∧ ws = rs ++ rs' := by
  induction gs generalizing s ws with
  | nil => exact ⟨s, [], ws, rfl, hrun, rfl⟩
  | cons g gs ih =>
    obtain ⟨v, r, ws, he, hr, hrest, rfl⟩ := runRecords_cons hrun
    obtain ⟨u, rs, rs', hgs, hhs, rfl⟩ := ih hrest
    refine ⟨u, r :: rs, rs', ?_, hhs, rfl⟩
    simp [runRecords, exec, he, Result.state?, hr, hgs]

/-- A run with fewer successes than `S − SIZE` stays below the threshold (R112). -/
theorem sampledBelow_of_runRecords {hs : List Hash} {s u : State} {rs : List Word} (hi : s.Inv)
    (hc : s.configured = true) (hrun : runRecords hs s = some (u, rs))
    (hfew : s.size.toNat + rs.countP (fun q => q.getLsbD 0) < s.samplingSize) : sampledBelow rs s u := by
  induction hs generalizing s rs with
  | nil =>
    obtain ⟨rfl, rfl⟩ := Prod.mk.inj (Option.some.inj hrun)
    exact ⟨hi, hc, rfl, rfl, by simp⟩
  | cons h hs ih =>
    obtain ⟨v, r, rs, he, hr, hrest, rfl⟩ := runRecords_cons hrun
    rw [← List.singleton_append, List.countP_append] at hfew
    have hfirst : sampledBelow [r] s v := sampledBelow_of_execRecord hi hc he hr fun hinc => by
      rw [List.countP_singleton, if_pos hinc] at hfew
      omega
    refine hfirst.append (ih hfirst.inv hfirst.configured hrest ?_)
    rw [hfirst.size, hfirst.samplingSize]
    omega

/-- A RECORD whose result says that it incremented is successful (R94). -/
theorem recordSucceeds_of_execRecord {s t : State} {h : Hash} {r : Word} (hc : s.configured = true)
    (he : execRecord h s = .next t) (hr : t.response = some ⟨.ok, r⟩) (hinc : r.getLsbD 0 = true) :
    s.recordSucceeds h := by
  by_contra hs
  obtain rfl := Host.Outcome.next.inj (he.symm.trans (execRecord_saturated hc hs))
  obtain rfl := State.result_of_respond hr
  exact absurd hinc (by decide)

/-- Settles O29: the RECORDs before the last stay below the threshold, and they bring `SIZE` to `S − 1`. -/
theorem agingComesExactlyAtTheThreshold : Obligations.AgingComesExactlyAtTheThreshold := by
  intro s t hs h rs r hi hc hrun hinc hcount
  obtain ⟨u, qs, last, hbefore, hlast, hsplit⟩ := runRecords_append hrun
  obtain ⟨t', r', rest, he, hr, hend, rfl⟩ := runRecords_cons hlast
  obtain ⟨rfl, rfl⟩ := Prod.mk.inj (Option.some.inj hend)
  obtain ⟨rfl, hrr⟩ := List.append_inj' hsplit rfl
  obtain rfl : r = r' := List.head_eq_of_cons_eq hrr
  have hq := sampledBelow_of_runRecords hi hc hbefore (by omega)
  have hfull : u.size.toNat + 1 = u.samplingSize := by
    have hsize := hq.size
    have hS := hq.samplingSize
    omega
  have hsucc := recordSucceeds_of_execRecord hq.configured he hr hinc
  obtain rfl := Host.Outcome.next.inj (he.symm.trans (execRecord_atThreshold hq.inv hq.configured hsucc hfull))
  refine ⟨State.result_of_respond hr, hq.quiet, ?_⟩
  rw [State.respond_size, State.agingPass_size_toNat, State.recorded_size_toNat h hq.inv hq.configured, hfull,
    hq.samplingSize]

end Sys2Proof.Machine
end

section
/-! Settles O28 (spec/43_query.md R121). The idea: on a zero table a counter of `h` counts, up to 15, the recorded hashes that
use it; `h` itself is one of them, and the only one unless another recorded hash shares the counter. -/

namespace Sys2Proof.Machine

/-- A counter in a word that is 0 is 0. -/
theorem Memory.counter_of_read_zero {t : Memory} {a : CounterAddr} (h : t.read a.block = 0) : t.counter a = 0 := by
  simp [Memory.counter, field, h]

/-- After a quiet run on a zero table, a counter is the number of recorded hashes that use it, up to 15. -/
theorem quietlyRecorded.counter_of_zeroTable {hs : List Hash} {s t : State} {h : Hash} {a : CounterAddr}
    (q : quietlyRecorded hs s t) (hzero : ∀ i, i < s.tableLength → s.table.read i = 0) (ha : a ∈ s.addrs h) :
    (t.table.counter a).toNat = min (hs.countP fun g => decide (a ∈ s.addrs g)) 15 := by
  have hstart : s.table.counter a = 0 := Memory.counter_of_read_zero (hzero _ (block_lt_of_mem_addrgen ha))
  simpa [hstart] using q.counters a (valid_of_mem_addrgen ha)

/-- The recorded hashes that use a counter of `h` are at least those equal to `h`. -/
theorem State.count_le_countP_users {s : State} {h : Hash} {a : CounterAddr} (hs : List Hash) (ha : a ∈ s.addrs h) :
    hs.count h ≤ hs.countP fun g => decide (a ∈ s.addrs g) := by
  refine List.countP_mono_left fun g _ hg => ?_
  obtain rfl : g = h := eq_of_beq hg
  exact decide_eq_true ha

/-- The recorded hashes that use an unshared counter of `h` are exactly those equal to `h`. -/
theorem State.countP_users_of_unshared {s : State} {h : Hash} {a : CounterAddr} {hs : List Hash} (ha : a ∈ s.addrs h)
    (hun : ∀ g ∈ hs, g ≠ h → a ∉ s.addrs g) : (hs.countP fun g => decide (a ∈ s.addrs g)) = hs.count h := by
  refine List.countP_congr fun g hg => ?_
  rw [decide_eq_true_iff, beq_iff_eq]
  constructor
  · intro huse
    by_contra hne
    exact hun g hg hne huse
  · rintro rfl
    exact ha

/-- Settles O28: the two facts on the users of a counter, and the estimate is one of the four counters. -/
theorem countMinBound : Obligations.CountMinBound := by
  intro s t hs h hi hc hzero hrun
  have q := quietlyRecorded_of_runsQuietly hc hi.canonical hrun
  have hlow : ∀ a ∈ s.addrs h, min (hs.count h) 15 ≤ (t.table.counter a).toNat := by
    intro a ha
    rw [q.counter_of_zeroTable hzero ha]
    exact min_le_min_right 15 (State.count_le_countP_users hs ha)
  have hexact : ∀ a ∈ s.addrs h, (∀ g ∈ hs, g ≠ h → a ∉ s.addrs g) →
      (t.table.counter a).toNat = min (hs.count h) 15 := by
    intro a ha hun
    rw [q.counter_of_zeroTable hzero ha, State.countP_users_of_unshared ha hun]
  obtain ⟨-, ⟨a, ha, hest⟩, -⟩ := t.estimate_spec h
  rw [q.addrs_eq] at ha
  rw [hest]
  exact ⟨fun b hb => ⟨hlow b hb, hexact b hb⟩, hlow a ha, fun hun => hexact a ha fun g hg hne => hun g hg hne a ha⟩

end Sys2Proof.Machine
end

section
/-! Settles O34 and O35 (spec/43_query.md R115, R116, R118). The ideas: the four addresses are the four rows; and QUERY and
HAS read one estimate, which its 64-bit result keeps, so HAS answers whether QUERY's result is 0. -/

namespace Sys2Proof.Machine

/-- The counter of row `r`, with its place in the word written out (R78). -/
theorem Memory.counter_row (t : Memory) (p : Params) (l : BitVec 5) (h : Hash) (r : Row) :
    t.counter ⟨block p l h r, offset h r⟩ = field (t.read (block p l h r)) (16 * (h.toNat % 4) + 4 * r.val) := by
  rw [Memory.counter, offset_eq_add]

/-- Settles O34: `estimate_spec` on the addresses of the four rows. -/
theorem queryReturnsTheMinimum : Obligations.QueryReturnsTheMinimum := by
  intro s h hc
  obtain ⟨hlow, ⟨a, ha, hest⟩, hmax⟩ := s.estimate_spec h
  obtain ⟨r, rfl⟩ := mem_addrgen.1 ha
  refine ⟨s.estimate h, execQuery_configured hc, hmax, fun r' => ?_, r, ?_⟩
  · rw [← Memory.counter_row]
    exact hlow _ (mem_addrgen.2 ⟨r', rfl⟩)
  · rw [← Memory.counter_row]
    exact hest

/-- QUERY's result is 0 only for the estimate 0: 64 bits hold every estimate (R116). -/
theorem State.estimateResult_ne_zero_iff (s : State) (h : Hash) :
    BitVec.ofNat 64 (s.estimate h) ≠ 0 ↔ 0 < s.estimate h := by
  obtain ⟨-, -, hmax⟩ := s.estimate_spec h
  rw [ne_eq, ← BitVec.toNat_inj, BitVec.toNat_ofNat, Nat.mod_eq_of_lt (by omega)]
  exact Nat.pos_iff_ne_zero.symm

theorem zextBool_eq_one_iff (b : Bool) : zextBool b = 1 ↔ b = true := by
  cases b <;> decide

theorem zextBool_eq_zero_or_one (b : Bool) : zextBool b = 0 ∨ zextBool b = 1 := by
  cases b <;> decide

/-- Settles O35: an unconfigured engine refuses both commands, a configured one answers both with OK. -/
theorem hasAgreesWithQuery : Obligations.HasAgreesWithQuery := by
  intro s h
  rcases Bool.eq_false_or_eq_true s.configured with hc | hc
  · have hagree : zextBool (decide (0 < s.estimate h)) = 1 ↔ BitVec.ofNat 64 (s.estimate h) ≠ 0 := by
      rw [zextBool_eq_one_iff, decide_eq_true_iff, State.estimateResult_ne_zero_iff]
    exact ⟨⟨.ok, _⟩, ⟨.ok, _⟩, execQuery_configured hc, execHas_configured hc, and_congr_right fun _ => hagree,
      Iff.rfl, fun _ => ⟨rfl, rfl, zextBool_eq_zero_or_one _⟩⟩
  · exact ⟨⟨.errNotConfigured, 0⟩, ⟨.errNotConfigured, 0⟩, execQuery_unconfigured hc, execHas_unconfigured hc,
      by simp, Iff.rfl, by simp [hc]⟩

end Sys2Proof.Machine
end

section
/-! Settles O14 to O17 (spec/44_capacity.md R126 to R130). The ideas: least exponents are unique, so the exponent a statement
speaks of is the one `log2Up` computes; and an instance's largest exponent fits the five bits of `LOG2L`. -/

namespace Sys2Proof.Machine

/-- `log2Up` is the one least exponent (R126). -/
theorem leastExponent_iff {n k : Nat} : leastExponent n k ↔ k = log2Up n := by
  constructor
  · intro ⟨hle, hleast⟩
    exact Nat.le_antisymm (hleast _ (le_two_pow_log2Up n)) (log2Up_le hle)
  · rintro rfl
    exact ⟨le_two_pow_log2Up n, fun _ => log2Up_le⟩

theorem nextPow2_of_leastExponent {n k : Nat} (h : leastExponent n k) : nextPow2 n = 2 ^ k := by
  rw [nextPow2, leastExponent_iff.1 h]

/-- A number above one power of two and within the next is rounded up to the next (R126). -/
theorem nextPow2_of_between {n k : Nat} (hlow : 2 ^ k < n) (hhigh : n ≤ 2 ^ (k + 1)) : nextPow2 n = 2 ^ (k + 1) :=
  nextPow2_of_leastExponent
    ⟨hhigh, fun _ hj => (Nat.pow_lt_pow_iff_right Nat.one_lt_two).1 (hlow.trans_le hj)⟩

/-- Settles O17: the least exponent is `log2Up`, and each example above 1 lies between two powers of two. -/
theorem nextPow2IsTheLeastPowerOfTwo : Obligations.NextPow2IsTheLeastPowerOfTwo := by
  refine ⟨fun n _ => ⟨log2Up n, rfl, leastExponent_iff.2 rfl⟩, rfl, ?_, ?_, ?_, ?_, ?_, ?_⟩
  · exact nextPow2_of_between (k := 0) (by decide) (by decide)
  · exact nextPow2_of_between (k := 1) (by decide) (by decide)
  · exact nextPow2_of_between (k := 6) (by decide) (by decide)
  · exact nextPow2_of_between (k := 6) (by decide) (by decide)
  · exact nextPow2_of_between (k := 7) (by decide) (by decide)
  · exact nextPow2_of_between (k := 30) (by decide) (by decide)

theorem exec_config (n : Int) (s : State) : exec (.config n) s = execConfig n s := rfl

/-- Settles O15: `next_pow2(n)` is `2^k`, so CONFIG finds the length above `L_MAX`. -/
theorem capacityAboveTheStoreIsRefused : Obligations.CapacityAboveTheStoreIsRefused := by
  intro s n k hn hk hl
  have hlarge : s.params.lMax < nextPow2 n.toNat := by
    rw [nextPow2_of_leastExponent hk]
    exact hl
  exact (exec_config n s).trans (execConfig_tooLarge hn hlarge)

/-- The largest table length of an instance has its exponent in the five bits of `LOG2L` (R9, R23). -/
theorem log2LMax_lt_of_wf {p : Params} (h : p.wf = true) : p.log2LMax < 2 ^ 5 := by
  simp only [Params.wf, Params.sizesFit, Bool.and_eq_true, decide_eq_true_eq] at h
  obtain ⟨-, ⟨-, hlog⟩, -⟩ := h
  omega

/-- Settles O16: the state CONFIG makes is `configure` at the least exponent, which `LOG2L` holds without wrapping. -/
theorem configMakesAZeroTable : Obligations.ConfigMakesAZeroTable := by
  intro s n k hw hn hk hl
  have hfits : nextPow2 n.toNat ≤ s.params.lMax := by
    rw [nextPow2_of_leastExponent hk]
    exact hl
  have hlog : k < 2 ^ 5 :=
    ((Nat.pow_le_pow_iff_right Nat.one_lt_two).1 hl).trans_lt (log2LMax_lt_of_wf hw)
  obtain rfl := leastExponent_iff.1 hk
  exact ⟨_, (exec_config n s).trans (execConfig_fits hn hfits), Nat.mod_eq_of_lt hlog, fun _ _ => rfl, rfl, rfl,
    rfl, rfl, rfl⟩

/-- How CONFIG reads its argument: it is non-positive exactly when it is 0 or has its sign bit set (R127). -/
theorem toInt_nonPositive_iff (arg : BitVec 32) : arg.toInt ≤ 0 ↔ arg = 0 ∨ arg.getLsbD 31 = true := by
  have hzero : arg.toInt = 0 ↔ arg = 0 := by rw [← BitVec.toInt_inj, BitVec.ofNat_eq_ofNat, BitVec.toInt_zero]
  have hsign : arg.toInt < 0 ↔ arg.getLsbD 31 = true := by
    rw [← decide_eq_true_iff (p := arg.toInt < 0), ← BitVec.msb_eq_toInt, BitVec.msb_eq_getLsbD_last]
  rw [Int.le_iff_lt_or_eq, hsign, hzero, or_comm]

/-- Settles O14: `execConfig_nonPositive`, which asks nothing of the state, and the reading of the argument. -/
theorem nonPositiveCapacityIsRefused : Obligations.NonPositiveCapacityIsRefused :=
  ⟨fun s n hn => (exec_config n s).trans (execConfig_nonPositive hn), fun arg => (toInt_nonPositive_iff arg).symm⟩

end Sys2Proof.Machine
end

section
/-! Settles O46 and O48 (spec/45_debug.md R136, R140, R142). The ideas: both word commands find the index out of range by the
one range check; and each field of the status word is one part of its concatenation, cut out at the part's own place. -/

namespace Sys2Proof.Machine

/-- Settles O46: `execRdWord_outOfRange` and `execWrWord_outOfRange`. -/
theorem indexAboveTheTableIsRefused : Obligations.IndexAboveTheTableIsRefused :=
  fun _ _ _ hc hi => ⟨execRdWord_outOfRange hc hi, execWrWord_outOfRange hc hi⟩

/-! ### The fields of the status word (R142) -/

theorem State.statusWord_size (s : State) : s.statusWord.extractLsb' 0 32 = s.size :=
  BitVec.extractLsb'_append_eq_right

theorem State.statusWord_log2l (s : State) : s.statusWord.extractLsb' 32 5 = s.log2l := by
  rw [State.statusWord, BitVec.extractLsb'_append_eq_of_le (by decide)]
  exact BitVec.extractLsb'_append_eq_right

theorem State.statusWord_zeros (s : State) : s.statusWord.extractLsb' 37 26 = 0 := by
  rw [State.statusWord, BitVec.extractLsb'_append_eq_of_le (by decide), BitVec.extractLsb'_append_eq_of_le (by decide)]
  exact BitVec.extractLsb'_append_eq_right

theorem State.statusWord_configured (s : State) : s.statusWord.getLsbD 63 = s.configured := by
  simp only [State.statusWord, BitVec.getLsbD_append]
  simp

/-- An engine that is not configured has no `LOG2L` and no `SIZE` to show (R21, R25). -/
theorem State.statusWord_unconfigured {s : State} (hi : s.Inv) (hc : s.configured = false) : s.statusWord = 0 := by
  obtain ⟨hlog, hsize, -⟩ := hi.unconfigured hc
  simp [State.statusWord, hc, hlog, hsize]

/-- Settles O48: RD_STAT answers the status word in every state, and its fields are read back one by one. -/
theorem rdStatReturnsTheStatusWord : Obligations.RdStatReturnsTheStatusWord := fun s =>
  ⟨s.statusWord, rfl, s.statusWord_size, s.statusWord_log2l, s.statusWord_zeros, s.statusWord_configured,
    State.statusWord_unconfigured⟩

end Sys2Proof.Machine
end

section
/-! Settles O49 (spec/60_exceptions.md R155). The idea, used for O3 and O13 below too: which status each meaning completes
with (R150 to R156) is said once, for every command and every state. -/

namespace Sys2Proof.Machine

/-- The result goes on in a state whose response has the status `st` (R60). -/
def answers (o : Result) (st : Status) : Prop := ∃ t r, o = .next t ∧ t.response = some ⟨st, r⟩

theorem answers_respond (s : State) (st : Status) (w : Word) : answers (.next (s.respond st w)) st := ⟨_, w, rfl, rfl⟩

theorem answers_raise (st : Status) (s : State) : answers (raise st s) st := answers_respond s st 0

/-- A check that chooses between two results chooses between their statuses. -/
theorem answers_ite {p : Prop} [Decidable p] {a b : Result} {st st' : Status} (ha : answers a st) (hb : answers b st') :
    answers (if p then a else b) (if p then st else st') := by
  split
  · exact ha
  · exact hb

/-- The status a command completes with: the checks of its own meaning, in their order. -/
def completionStatus (s : State) : Instr → Status
  | .config n =>
    if n ≤ 0 then .errInvalidCapacity
    else if s.params.lMax < nextPow2 n.toNat then .errCapacityTooLarge else .ok
  | .record _ | .query _ | .has _ | .age => if s.configured = false then .errNotConfigured else .ok
  | .rdword k | .wrword k _ =>
    if s.configured = false then .errNotConfigured
    else if s.indexInRange k = false then .errIndexRange else .ok
  | .rdstat => .ok

theorem answers_countSample (s : State) : answers (countSample s) .ok := by
  unfold countSample
  dsimp only
  split
  · exact answers_respond _ _ _
  · exact answers_respond _ _ _

/-- A RECORD of a configured engine completes with OK whatever its counters are (R92, R153). -/
theorem answers_execRecord (h : Hash) (s : State) : answers (execRecord h s) (completionStatus s (.record h)) := by
  refine answers_ite (answers_raise _ s) ?_
  dsimp only
  split
  · exact answers_countSample _
  · exact answers_respond _ _ _

/-- Every meaning completes with its `completionStatus`: the checks stand in the same order on both sides. -/
theorem answers_exec (i : Instr) (s : State) : answers (exec i s) (completionStatus s i) := by
  cases i with
  | config n => exact answers_ite (answers_raise _ s) (answers_ite (answers_raise _ s) (answers_respond _ _ _))
  | record h => exact answers_execRecord h s
  | query h => exact answers_ite (answers_raise _ s) (answers_respond _ _ _)
  | has h => exact answers_ite (answers_raise _ s) (answers_respond _ _ _)
  | age => exact answers_ite (answers_raise _ s) (answers_respond _ _ _)
  | rdword k => exact answers_ite (answers_raise _ s) (answers_ite (answers_raise _ s) (answers_respond _ _ _))
  | wrword k d => exact answers_ite (answers_raise _ s) (answers_ite (answers_raise _ s) (answers_respond _ _ _))
  | rdstat => exact answers_respond _ _ _

theorem completionStatus_config_ne_errNotConfigured (s : State) (n : Int) :
    completionStatus s (.config n) ≠ .errNotConfigured := by
  dsimp only [completionStatus]
  split_ifs <;> decide

/-- No meaning answers ERR_ILLEGAL: only the decoder finds a word illegal (R151). -/
theorem completionStatus_ne_errIllegal (s : State) (i : Instr) : completionStatus s i ≠ .errIllegal := by
  cases i with
  | rdstat => simp [completionStatus]
  | _ => dsimp only [completionStatus]; split_ifs <;> decide

/-- Settles O49: each table command checks `CONFIGURED` first; CONFIG and RD_STAT never look at it. -/
theorem unconfiguredEngineRefusesTableCommands : Obligations.UnconfiguredEngineRefusesTableCommands := by
  intro s
  refine ⟨fun hc i hi => ?_, fun i hi => ?_⟩
  · obtain ⟨h, rfl⟩ | ⟨h, rfl⟩ | ⟨h, rfl⟩ | rfl | ⟨k, rfl⟩ | ⟨k, d, rfl⟩ := hi
    · exact execRecord_unconfigured hc
    · exact execQuery_unconfigured hc
    · exact execHas_unconfigured hc
    · exact execAge_unconfigured hc
    · exact execRdWord_unconfigured hc
    · exact execWrWord_unconfigured hc
  · obtain ⟨t, r, ht, hr⟩ := answers_exec i s
    refine ⟨t, _, r, ht, hr, ?_⟩
    obtain ⟨n, rfl⟩ | rfl := hi
    · exact completionStatus_config_ne_errNotConfigured s n
    · simp [completionStatus]

end Sys2Proof.Machine
end

section
/-! Settles O3, O12 and O13 (spec/60_exceptions.md R151, R152, R156). The ideas: the decoder refuses exactly the words of the
four clauses of R151; and on a word it accepts, the checks of R156 that name the word's opcode are those of its meaning. -/

namespace Sys2Proof.Machine

/-- A step with a command waiting serves it on the state that has taken it. -/
theorem step_of_issue {s : State} {c : Command} {rest : List HostInput} (h : s.inbox = .issue c :: rest) :
    step s = serve c (s.withInbox rest) := by
  simp only [step, h, serveInput]

/-! ### Which words decode (R61, R151) -/

theorem ifDebug_eq_illegal {p : Params} {d : Decoded} {w : IllegalReason} (h : ifDebug p d = .illegal w) :
    p.debugCmds = false ∨ d = .illegal w := by
  unfold ifDebug at h
  split at h
  · exact .inr h
  · exact .inl (Bool.eq_false_of_not_eq_true ‹_›)

theorem ifNoArgument_eq_illegal {arg : BitVec 32} {i : Instr} {w : IllegalReason}
    (h : ifNoArgument arg i = .illegal w) : arg ≠ 0 := by
  rintro rfl
  cases h

/-- Every word the decoder refuses meets one of the four clauses of R151. -/
theorem illegalWord_of_decode {p : Params} {c : Command} {w : IllegalReason} (h : decode p c = .illegal w) :
    illegalWord p c := by
  unfold decode at h
  split at h
  · exact .inl ‹_›
  · have debugAbsent : 5 ≤ c.opc.toNat → c.opc.toNat ≤ 8 → p.debugCmds = false → illegalWord p c :=
      fun hlow hhigh hp => .inr (.inr (.inr ⟨⟨hlow, hhigh⟩, hp⟩))
    have argumentNotZero : c.opc.toNat = 5 ∨ c.opc.toNat = 8 → c.arg ≠ 0 → illegalWord p c := fun ho ha =>
      .inr (.inr (.inl ⟨ho.imp (opc_eq_iff c (by decide)).2 (opc_eq_iff c (by decide)).2, ha⟩))
    split at h
    case h_5 ho | h_8 ho =>
      obtain hp | hd := ifDebug_eq_illegal h
      · exact debugAbsent (by omega) (by omega) hp
      · exact argumentNotZero (by omega) (ifNoArgument_eq_illegal hd)
    case h_6 ho | h_7 ho =>
      obtain hp | hd := ifDebug_eq_illegal h
      · exact debugAbsent (by omega) (by omega) hp
      · cases hd
    case h_9 =>
      have hzero : c.opc = 0 ↔ c.opc.toNat = 0 := opc_eq_iff c (by decide)
      have reservedOpcode : c.opc = 0 ∨ 9 ≤ c.opc.toNat := by
        rw [hzero]
        grind
      exact .inr (.inl reservedOpcode)
    all_goals cases h

/-- A word that decodes to a command meets none of the clauses of R151. -/
theorem not_illegalWord_of_decode {p : Params} {c : Command} {i : Instr} (h : decode p c = .instr i) :
    ¬ illegalWord p c := by
  obtain ⟨hrsv, hcases⟩ := decode_cases h
  obtain ⟨ho, -⟩ | ⟨ho, -⟩ | ⟨ho, -⟩ | ⟨ho, -⟩ | ⟨ho, hp, ha, -⟩ | ⟨ho, hp, -⟩ | ⟨ho, hp, -⟩ | ⟨ho, hp, ha, -⟩ := hcases
  all_goals simp [illegalWord, *]

theorem serve_of_decode_illegal {s : State} {c : Command} {w : IllegalReason} (h : decode s.params c = .illegal w) :
    serve c s = raise .errIllegal s := by
  simp [serve, h]

theorem serve_of_illegalWord {s : State} {c : Command} (h : illegalWord s.params c) :
    serve c s = raise .errIllegal s := by
  cases hd : decode s.params c with
  | instr i => exact absurd h (not_illegalWord_of_decode hd)
  | illegal w => exact serve_of_decode_illegal hd

theorem decode_of_not_illegalWord {p : Params} {c : Command} (h : ¬ illegalWord p c) : ∃ i, decode p c = .instr i := by
  cases hd : decode p c with
  | instr i => exact ⟨i, rfl⟩
  | illegal w => exact absurd (illegalWord_of_decode hd) h

/-- Settles O3: an illegal word is served by `raise`, every other one by its meaning, which never answers ERR_ILLEGAL. -/
theorem exactlyTheIllegalWordsAnswerErrIllegal : Obligations.ExactlyTheIllegalWordsAnswerErrIllegal := by
  intro s c rest hin
  refine ⟨fun hill => (step_of_issue hin).trans (serve_of_illegalWord hill), fun hlegal => ?_⟩
  obtain ⟨i, hd⟩ := decode_of_not_illegalWord hlegal
  have hstep : step s = exec i (s.withInbox rest) := (step_of_issue hin).trans (serve_of_decode hd)
  obtain ⟨t, r, ht, hr⟩ := answers_exec i (s.withInbox rest)
  exact ⟨i, t, _, r, hd, hstep, hstep.trans ht, hr, completionStatus_ne_errIllegal _ i⟩

/-! ### Completion of every command word (R152) -/

/-- What serving any command word does: `exec_next` for a word that decodes, and the same of a refused one. -/
theorem serve_next (c : Command) (s : State) :
    ∃ t st r, serve c s = .next t ∧ t.response = some ⟨st, r⟩ ∧ t.inbox = s.inbox ∧
      (st ≠ .ok → sameEngine s t ∧ r = 0) := by
  cases hd : decode s.params c with
  | instr i =>
    obtain ⟨t, st, r, ht, hr, hin, -, herr⟩ := exec_next i s
    exact ⟨t, st, r, (serve_of_decode hd).trans ht, hr, hin, herr⟩
  | illegal w =>
    exact ⟨_, _, _, serve_of_decode_illegal hd, rfl, rfl, fun _ => ⟨⟨rfl, rfl, rfl, rfl, rfl⟩, rfl⟩⟩

/-- Settles O12: `serve_next` on the state whose inbox is the rest. -/
theorem errorsChangeNoState : Obligations.ErrorsChangeNoState := by
  intro s c rest hin
  rw [step_of_issue hin]
  exact serve_next c (s.withInbox rest)

/-! ### The priority list (R156) -/

/-- `L_MAX` is a power of two, so rounding a capacity up does not carry it past `L_MAX` (R128). -/
theorem lMax_lt_nextPow2_iff (p : Params) (n : Nat) : p.lMax < nextPow2 n ↔ p.lMax < n := by
  constructor
  · intro h
    by_contra hn
    exact absurd h (Nat.not_lt.2 (Nat.pow_le_pow_right (by decide) (log2Up_le (Nat.not_lt.1 hn))))
  · exact fun h => h.trans_le (le_two_pow_log2Up n)

/-- On a word that decodes, the list of R156 gives the status of the command it decodes to. -/
theorem expectedStatus_of_decode {s : State} {c : Command} {i : Instr} (h : decode s.params c = .instr i) :
    expectedStatus s c = completionStatus s i := by
  rw [expectedStatus, if_neg (not_illegalWord_of_decode h)]
  obtain ⟨-, hcases⟩ := decode_cases h
  obtain ⟨ho, rfl⟩ | ⟨ho, rfl⟩ | ⟨ho, rfl⟩ | ⟨ho, rfl⟩ | ⟨ho, -, -, rfl⟩ | ⟨ho, -, rfl⟩ | ⟨ho, -, rfl⟩ |
    ⟨ho, -, -, rfl⟩ := hcases
  case inl => simp [ho, needsTable, completionStatus, lMax_lt_nextPow2_iff, Int.lt_toNat]
  all_goals simp [ho, needsTable, completionStatus, State.indexInRange]

/-- Settles O13: the first check of the list is the decoder's; the rest is `expectedStatus_of_decode`. -/
theorem statusFollowsThePriorityList : Obligations.StatusFollowsThePriorityList := by
  intro s c
  by_cases hill : illegalWord s.params c
  · rw [serve_of_illegalWord hill, expectedStatus, if_pos hill]
    exact answers_raise .errIllegal s
  · obtain ⟨i, hd⟩ := decode_of_not_illegalWord hill
    rw [serve_of_decode hd, expectedStatus_of_decode hd]
    exact answers_exec i s

end Sys2Proof.Machine
end

section
/-! Settles O1, O2 and O6 (spec/30_encoding.md R56 to R66, spec/60_exceptions.md R150). The idea: a command that a word decodes
to has the opcode and the argument of that word, and with no reserved bit set these two are the whole word. -/

namespace Sys2Proof

/-- Settles O1: `decode_encode`, which goes through the eight commands. -/
theorem decodeOfEncodeIsTheCommand : Obligations.DecodeOfEncodeIsTheCommand :=
  fun _ _ h => decode_encode h

/-- The 32 bits of an argument, read as signed, are in the range of a capacity (R58). -/
theorem capacityFits_toInt (arg : BitVec 32) : capacityFits arg.toInt = true := by
  have hlow := BitVec.le_toInt arg
  have hhigh := BitVec.toInt_lt (x := arg)
  simp only [capacityFits, Bool.and_eq_true, decide_eq_true_eq]
  omega

/-- The 32 bits of an argument, read as unsigned, are in the range of a word index (R58). -/
theorem indexFits_toNat (arg : BitVec 32) : indexFits arg.toNat = true := by
  have hlt := arg.isLt
  simp only [indexFits, decide_eq_true_eq]
  omega

theorem ofNat_toNat_argument (arg : BitVec 32) : BitVec.ofNat 32 arg.toNat = arg :=
  (BitVec.ofNat_toNat 32 arg).trans (BitVec.setWidth_eq arg)

section
variable {p : Params} {c : Command} {i : Instr}

/-- A decoded command has its operands in range and is one the parameters allow (R58, R65). -/
theorem wf_of_decode (h : decode p c = .instr i) : i.wf p = true := by
  obtain ⟨-, hcases⟩ := decode_cases h
  obtain ⟨-, rfl⟩ | ⟨-, rfl⟩ | ⟨-, rfl⟩ | ⟨-, rfl⟩ | ⟨-, hp, -, rfl⟩ | ⟨-, hp, rfl⟩ | ⟨-, hp, rfl⟩ | ⟨-, hp, -, rfl⟩ :=
    hcases
  · exact capacityFits_toInt c.arg
  · rfl
  · rfl
  · rfl
  · exact hp
  · exact Bool.and_eq_true_iff.2 ⟨hp, indexFits_toNat c.arg⟩
  · exact Bool.and_eq_true_iff.2 ⟨hp, indexFits_toNat c.arg⟩
  · exact hp

/-- A decoded command has the argument and the opcode of its word (R56, R58, R59). -/
theorem parts_of_decode (h : decode p c = .instr i) : i.argument = c.arg ∧ i.opcode = c.opc := by
  obtain ⟨-, hcases⟩ := decode_cases h
  obtain ⟨ho, rfl⟩ | ⟨ho, rfl⟩ | ⟨ho, rfl⟩ | ⟨ho, rfl⟩ | ⟨ho, -, ha, rfl⟩ | ⟨ho, -, rfl⟩ | ⟨ho, -, rfl⟩ |
    ⟨ho, -, ha, rfl⟩ := hcases
  · exact ⟨BitVec.ofInt_toInt, ho.symm⟩
  · exact ⟨rfl, ho.symm⟩
  · exact ⟨rfl, ho.symm⟩
  · exact ⟨rfl, ho.symm⟩
  · exact ⟨ha.symm, ho.symm⟩
  · exact ⟨ofNat_toNat_argument c.arg, ho.symm⟩
  · exact ⟨ofNat_toNat_argument c.arg, ho.symm⟩
  · exact ⟨ha.symm, ho.symm⟩

/-- A decoded command's encoding is the word it was decoded from (R66). -/
theorem cmd_encode_of_decode (h : decode p c = .instr i) : (encode i).cmd = c.cmd := by
  obtain ⟨harg, hopc⟩ := parts_of_decode h
  obtain ⟨hrsv, -⟩ := decode_cases h
  calc (encode i).cmd = commandWord c.arg c.opc := by rw [encode, harg, hopc]
    _ = c.cmd := commandWord_parts hrsv

end

/-- Settles O2: range, word and `DATA` of a decoded command, one lemma each. -/
theorem decodedWordsAreEncodings : Obligations.DecodedWordsAreEncodings := by
  intro p c i h
  refine ⟨wf_of_decode h, cmd_encode_of_decode h, ?_⟩
  rintro k d rfl
  exact data_of_decode_wrword h

end Sys2Proof

namespace Sys2Proof.Machine

/-- A status is read back from its code (R150). -/
theorem readStatus_code (st : Status) : readStatus st.code = .next st := by
  cases st <;> rfl

/-- A code above the table of R150 is a fault of the record (U9). -/
theorem readStatus_unknown {code : BitVec 4} (h : 6 ≤ code.toNat) : readStatus code = .fault (.unknownStatus code) := by
  unfold readStatus
  split
  case h_7 => rfl
  all_goals omega

/-- Settles O6: the six codes are the table's own, and the other ten are `readStatus_unknown`. -/
theorem statusCodesReadBack : Obligations.StatusCodesReadBack :=
  ⟨⟨rfl, rfl, rfl, rfl, rfl, rfl⟩, readStatus_code, fun _ => readStatus_unknown⟩

end Sys2Proof.Machine
end

section
/-! Settles O50 to O55 (spec/10_state.md R22 to R25, R33, R54, spec/60_exceptions.md R152). The idea: the states a command
can complete in are listed once, for every command and every state (`Completion`), and so are those a step can end in
(`step_next`); each statement is then a reading of the list. -/

namespace Sys2Proof.Machine

/-! ### What RECORD does to any table, canonical or not -/

/-- Once a lane has incremented, the flag stays set. -/
theorem foldl_lane_flag_set (as : List CounterAddr) (t : Memory) : (as.foldl lane (t, true)).2 = true := by
  induction as generalizing t with
  | nil => rfl
  | cons a as ih =>
    have hlane : lane (t, true) a = ((lane (t, true) a).1, true) := Prod.ext rfl (by simp [lane_flag])
    rw [List.foldl_cons, hlane]
    exact ih _

/-- A counter below 15 sets the flag: no lane has written before the first one that increments (R91). -/
theorem recordLanes_flag_of_succeeds {t : Memory} {as : List CounterAddr} (h : ∃ a ∈ as, t.counter a ≠ counterMax) :
    (recordLanes t as).2 = true := by
  unfold recordLanes
  induction as with
  | nil => simp at h
  | cons a as ih =>
    rw [List.foldl_cons]
    by_cases ha : t.counter a = counterMax
    · rw [show lane (t, false) a = (t, false) from if_pos ha]
      exact ih (by simpa [ha] using h)
    · have hlane : lane (t, false) a = ((lane (t, false) a).1, true) := Prod.ext rfl (by simp [lane_flag, ha])
      rw [hlane]
      exact foldl_lane_flag_set as _

/-- A successful RECORD counts the sample, and runs the aging pass exactly when that makes `S` (R93). -/
theorem execRecord_successful {s : State} {h : Hash} (hc : s.configured = true) (hs : s.recordSucceeds h) :
    execRecord h s =
      if (s.recorded h).size.toNat = s.samplingSize then .next ((s.recorded h).agingPass.respond .ok 3)
      else .next ((s.recorded h).respond .ok 1) := by
  rw [execRecord, if_neg (by simp [hc])]
  exact if_pos (recordLanes_flag_of_succeeds hs)

/-! ### The states a command completes in -/

/-- Command `i`, run on `s`, completes in a state of this list: the branches of the commands' pseudocode, and what holds in
each. -/
inductive Completion (s : State) : Instr → State → Prop where
  /-- An error: the response alone. -/
  | raised (i : Instr) {st : Status} (hst : st ≠ .ok) : Completion s i (s.respond st 0)
  | config {n : Int} (hn : 0 < n) (hl : nextPow2 n.toNat ≤ s.params.lMax) :
      Completion s (.config n) ((s.configure (log2Up n.toNat)).respond .ok 0)
  | recordSaturated {h : Hash} (hc : s.configured = true) (hs : ¬ s.recordSucceeds h) :
      Completion s (.record h) (s.respond .ok 0)
  | recordCounted {h : Hash} (hc : s.configured = true) (hs : s.recordSucceeds h)
      (hne : (s.recorded h).size.toNat ≠ s.samplingSize) :
      Completion s (.record h) ((s.recorded h).respond .ok 1)
  | recordAged {h : Hash} (hc : s.configured = true) (hs : s.recordSucceeds h)
      (heq : (s.recorded h).size.toNat = s.samplingSize) :
      Completion s (.record h) ((s.recorded h).agingPass.respond .ok 3)
  | query (h : Hash) (hc : s.configured = true) :
      Completion s (.query h) (s.respond .ok (BitVec.ofNat 64 (s.estimate h)))
  | has (h : Hash) (hc : s.configured = true) :
      Completion s (.has h) (s.respond .ok (zextBool (decide (0 < s.estimate h))))
  | age (hc : s.configured = true) : Completion s .age (s.agingPass.respond .ok 0)
  | rdword {k : Nat} (hc : s.configured = true) (hk : k < s.tableLength) :
      Completion s (.rdword k) (s.respond .ok (s.table.read k))
  | wrword {k : Nat} (d : Word) (hc : s.configured = true) (hk : k < s.tableLength) :
      Completion s (.wrword k d) ((s.writeWord k d).respond .ok 0)
  | rdstat : Completion s .rdstat (s.respond .ok s.statusWord)

/-- The result goes on in a state that `i` can complete in. -/
def completesAs (s : State) (i : Instr) (o : Result) : Prop := ∃ t, o = .next t ∧ Completion s i t

theorem completesAs_raise (s : State) (i : Instr) {st : Status} (hst : st ≠ .ok) : completesAs s i (raise st s) :=
  ⟨_, rfl, .raised i hst⟩

theorem completesAs_config (n : Int) (s : State) : completesAs s (.config n) (execConfig n s) := by
  by_cases hn : n ≤ 0
  · rw [execConfig_nonPositive hn]
    exact completesAs_raise s _ (by decide)
  · obtain hl | hl := Nat.lt_or_ge s.params.lMax (nextPow2 n.toNat)
    · rw [execConfig_tooLarge (by omega) hl]
      exact completesAs_raise s _ (by decide)
    · exact ⟨_, execConfig_fits (by omega) hl, .config (by omega) hl⟩

theorem completesAs_record (h : Hash) {s : State} (hc : s.configured = true) :
    completesAs s (.record h) (execRecord h s) := by
  by_cases hs : s.recordSucceeds h
  · rw [execRecord_successful hc hs]
    split
    next heq => exact ⟨_, rfl, .recordAged hc hs heq⟩
    next hne => exact ⟨_, rfl, .recordCounted hc hs hne⟩
  · exact ⟨_, execRecord_saturated hc hs, .recordSaturated hc hs⟩

theorem completesAs_rdword (k : Nat) {s : State} (hc : s.configured = true) :
    completesAs s (.rdword k) (execRdWord k s) := by
  obtain hk | hk := Nat.lt_or_ge k s.tableLength
  · exact ⟨_, execRdWord_inRange hc hk, .rdword hc hk⟩
  · rw [execRdWord_outOfRange hc hk]
    exact completesAs_raise s _ (by decide)

theorem completesAs_wrword (k : Nat) (d : Word) {s : State} (hc : s.configured = true) :
    completesAs s (.wrword k d) (execWrWord k d s) := by
  obtain hk | hk := Nat.lt_or_ge k s.tableLength
  · exact ⟨_, execWrWord_inRange hc hk, .wrword d hc hk⟩
  · rw [execWrWord_outOfRange hc hk]
    exact completesAs_raise s _ (by decide)

/-- A command that checks `CONFIGURED` first (R155). -/
theorem completesAs_checked {s : State} {i : Instr} {o : Result}
    (hu : s.configured = false → o = raise .errNotConfigured s) (hc : s.configured = true → completesAs s i o) :
    completesAs s i o := by
  obtain h | h := Bool.eq_false_or_eq_true s.configured
  · exact hc h
  · rw [hu h]
    exact completesAs_raise s i (by decide)

/-- Every command, in every state, completes in a state of the list. -/
theorem exec_completes (i : Instr) (s : State) : completesAs s i (exec i s) := by
  cases i with
  | config n => exact completesAs_config n s
  | record h => exact completesAs_checked execRecord_unconfigured (completesAs_record h)
  | query h => exact completesAs_checked execQuery_unconfigured fun hc => ⟨_, execQuery_configured hc, .query h hc⟩
  | has h => exact completesAs_checked execHas_unconfigured fun hc => ⟨_, execHas_configured hc, .has h hc⟩
  | age => exact completesAs_checked execAge_unconfigured fun hc => ⟨_, execAge_configured hc, .age hc⟩
  | rdword k => exact completesAs_checked execRdWord_unconfigured (completesAs_rdword k)
  | wrword k d => exact completesAs_checked execWrWord_unconfigured (completesAs_wrword k d)
  | rdstat => exact ⟨_, rfl, .rdstat⟩

theorem completion_of_exec {s t : State} {i : Instr} (h : exec i s = .next t) : Completion s i t := by
  obtain ⟨u, hu, hcompletion⟩ := exec_completes i s
  obtain rfl := Host.Outcome.next.inj (h.symm.trans hu)
  exact hcompletion

/-- Every state a step ends in: the same, a reset one, the completion of the decoded command, or an illegal word's. -/
theorem step_next {s t : State} (h : step s = .next t) :
    t = s ∨
    (∃ o rest, s.inbox = .reset o :: rest ∧ t = (s.withInbox rest).resetEngine) ∨
    (∃ c rest i, s.inbox = .issue c :: rest ∧ decode s.params c = .instr i ∧ Completion (s.withInbox rest) i t) ∨
    ∃ rest, t = (s.withInbox rest).respond .errIllegal 0 := by
  obtain ⟨-, hstep⟩ | ⟨o, rest, hin, hstep⟩ | ⟨c, rest, i, hin, hd, hstep⟩ | ⟨-, rest, -, -, -, hstep⟩ := step_cases s
  · exact .inl (Host.Outcome.next.inj (h.symm.trans hstep))
  · exact .inr (.inl ⟨o, rest, hin, Host.Outcome.next.inj (h.symm.trans hstep)⟩)
  · exact .inr (.inr (.inl ⟨c, rest, i, hin, hd, completion_of_exec (hstep.symm.trans h)⟩))
  · exact .inr (.inr (.inr ⟨rest, Host.Outcome.next.inj (h.symm.trans hstep)⟩))

/-! ### The invariant (R25) -/

/-- A response with `RESULT = 0` is no part of the invariant, whatever its status. -/
theorem State.Inv.respond_zero {s : State} (hi : s.Inv) (st : Status) : (s.respond st 0).Inv where
  params := hi.params
  canonical := hi.canonical
  fits := hi.fits
  sampled := hi.sampled
  within := hi.within
  unconfigured := hi.unconfigured
  precise _ hr _ := (congrArg Response.result (Option.some.inj hr)).symm

/-- Waiting inputs are no part of the invariant. -/
theorem State.Inv.withInbox {s : State} (hi : s.Inv) (rest : List HostInput) : (s.withInbox rest).Inv where
  params := hi.params
  canonical := hi.canonical
  fits := hi.fits
  sampled := hi.sampled
  within := hi.within
  unconfigured := hi.unconfigured
  precise := hi.precise

theorem State.Inv.resetEngine {s : State} (hi : s.Inv) : s.resetEngine.Inv where
  params := hi.params
  canonical := rfl
  fits hc := absurd hc (by simp)
  sampled hc := absurd hc (by simp)
  within hc := absurd hc (by simp)
  unconfigured _ := ⟨rfl, rfl, rfl⟩
  precise _ hr := absurd hr (by simp)

/-- The sampling size of a legal instance is positive: its factor is (R9). -/
theorem State.samplingSize_pos {s : State} (hw : s.params.wf = true) : 0 < s.samplingSize := by
  simp only [Params.wf, Params.sizesFit, Bool.and_eq_true, decide_eq_true_eq] at hw
  obtain ⟨-, ⟨hfactor, -⟩, -⟩ := hw
  exact Nat.mul_pos hfactor s.tableLength_pos

/-- A length within the store has its exponent within `LOG2_LMAX` (R128). -/
theorem log2Up_le_log2LMax {p : Params} {n : Nat} (hl : nextPow2 n ≤ p.lMax) : log2Up n ≤ p.log2LMax :=
  (Nat.pow_le_pow_iff_right Nat.one_lt_two).1 hl

/-- A CONFIG whose exponent is within the store (R129). -/
theorem State.Inv.configure {s : State} (hi : s.Inv) {k : Nat} (hk : k ≤ s.params.log2LMax) : (s.configure k).Inv where
  params := hi.params
  canonical := rfl
  fits _ := (Nat.mod_le k _).trans hk
  sampled _ := State.samplingSize_pos hi.params
  within _ _ hcell := absurd hcell (by simp)
  unconfigured hc := absurd hc (by simp)
  precise := hi.precise

/-- The aging pass. -/
theorem State.Inv.agingPass {s : State} (hi : s.Inv) (hc : s.configured = true) : s.agingPass.Inv where
  params := hi.params
  canonical := Memory.wf_halveBelow _ hi.canonical
  fits := hi.fits
  sampled _ := by
    rw [State.agingPass_size_toNat]
    exact (Nat.div_le_self _ 2).trans_lt (hi.sampled hc)
  within _ c hcell := by
    obtain ⟨d, hd, heq⟩ := Memory.mem_halveBelow hcell
    exact heq ▸ hi.within hc d hd
  unconfigured hn := absurd (hc.symm.trans hn) (by decide)
  precise := hi.precise

/-- A WR_WORD in range. -/
theorem State.Inv.writeWord {s : State} (hi : s.Inv) (hc : s.configured = true) {k : Nat} (d : Word)
    (hk : k < s.tableLength) : (s.writeWord k d).Inv where
  params := hi.params
  canonical := Memory.wf_write _ _ hi.canonical
  fits := hi.fits
  sampled := hi.sampled
  within _ c hcell := by
    obtain rfl | hcell := Memory.mem_write hcell
    · exact hk
    · exact hi.within hc c hcell
  unconfigured hn := absurd (hc.symm.trans hn) (by decide)
  precise := hi.precise

/-- The table after a RECORD's lanes, `SIZE` left as it was. -/
theorem State.Inv.lanesRun {s : State} (hi : s.Inv) (hc : s.configured = true) (h : Hash) :
    { s with table := (s.recorded h).table }.Inv where
  params := hi.params
  canonical := State.recorded_wf h hi.canonical
  fits := hi.fits
  sampled := hi.sampled
  within _ c hcell := by
    obtain ⟨d, hd, heq⟩ | ⟨a, ha, heq⟩ := mem_foldl_lane hcell
    · exact heq ▸ hi.within hc d hd
    · exact heq ▸ block_lt_of_mem_addrgen ha
  unconfigured hn := absurd (hc.symm.trans hn) (by decide)
  precise := hi.precise

/-- Any other `SIZE` below `S` (R25). -/
theorem State.Inv.withSize {s : State} (hi : s.Inv) (hc : s.configured = true) {n : BitVec 32}
    (hn : n.toNat < s.samplingSize) : { s with size := n }.Inv where
  params := hi.params
  canonical := hi.canonical
  fits := hi.fits
  sampled _ := hn
  within := hi.within
  unconfigured hu := absurd (hc.symm.trans hu) (by decide)
  precise := hi.precise

/-- A RECORD at the threshold: the pass halves `S` itself, so `SIZE` is below `S` again (R93, R106). -/
theorem State.Inv.recorded_agingPass {s : State} (hi : s.Inv) (hc : s.configured = true) {h : Hash}
    (heq : (s.recorded h).size.toNat = s.samplingSize) : (s.recorded h).agingPass.Inv := by
  have hhalf : (s.recorded h).agingPass.size.toNat < s.samplingSize := by
    rw [State.agingPass_size_toNat, heq]
    exact Nat.div_lt_self (State.samplingSize_pos hi.params) Nat.one_lt_two
  exact ((hi.lanesRun hc h).agingPass hc).withSize hc hhalf

/-- Every completion keeps the invariant. -/
theorem Completion.inv {s t : State} {i : Instr} (h : Completion s i t) (hi : s.Inv) : t.Inv := by
  cases h with
  | raised _ _ => exact hi.respond_zero _
  | config _ hl => exact (hi.configure (log2Up_le_log2LMax hl)).respond_ok 0
  | recordSaturated _ _ => exact hi.respond_ok 0
  | recordCounted hc _ hne =>
    rw [State.recorded_size_toNat _ hi hc] at hne
    exact (hi.recorded hc _ hne).respond_ok 1
  | recordAged hc _ heq => exact (hi.recorded_agingPass hc heq).respond_ok 3
  | query _ _ => exact hi.respond_ok _
  | has _ _ => exact hi.respond_ok _
  | age hc => exact (hi.agingPass hc).respond_ok 0
  | rdword _ _ => exact hi.respond_ok _
  | wrword d hc hk => exact (hi.writeWord hc d hk).respond_ok 0
  | rdstat => exact hi.respond_ok _

/-- Settles O50: idle, reset, completion and illegal word each keep the invariant. -/
theorem stepKeepsTheInvariant : Obligations.StepKeepsTheInvariant := by
  intro s t hi hstep
  obtain rfl | ⟨o, rest, -, rfl⟩ | ⟨c, rest, i, -, -, hcompletion⟩ | ⟨rest, rfl⟩ := step_next hstep
  · exact hi
  · exact (hi.withInbox rest).resetEngine
  · exact hcompletion.inv (hi.withInbox rest)
  · exact (hi.withInbox rest).respond_zero _

/-- The state after reset of a legal instance: no register is set and no response given (R27). -/
theorem State.inv_resetOf {p : Params} (hp : p.wf = true) : (State.resetOf p).Inv where
  params := hp
  canonical := rfl
  fits hc := Bool.noConfusion hc
  sampled hc := Bool.noConfusion hc
  within hc := Bool.noConfusion hc
  unconfigured _ := ⟨rfl, rfl, rfl⟩
  precise _ hr := by cases hr

/-- Settles O51: the default parameters are legal. -/
theorem resetMeetsTheInvariant : Obligations.ResetMeetsTheInvariant :=
  ⟨fun _ => State.inv_resetOf, State.inv_resetOf (by decide)⟩

/-! ### Who writes what (R22 to R24, R33) -/

/-- No completion but an OK CONFIG's changes `LOG2L` or `CONFIGURED` (R22, R23). -/
theorem Completion.length_cases {s t : State} {i : Instr} (h : Completion s i t) :
    (t.log2l = s.log2l ∧ t.configured = s.configured) ∨ (∃ n, i = .config n) ∧ t.response = some ⟨.ok, 0⟩ := by
  cases h with
  | config _ _ => exact .inr ⟨⟨_, rfl⟩, rfl⟩
  | _ => exact .inl ⟨rfl, rfl⟩

/-- Settles O52: `length_cases` for a command; an idle step and an illegal word change neither register. -/
theorem onlyConfigAndResetChangeTheLength : Obligations.OnlyConfigAndResetChangeTheLength := by
  intro s t hstep hchange
  obtain rfl | ⟨o, rest, hin, -⟩ | ⟨c, rest, i, hin, hd, hcompletion⟩ | ⟨rest, rfl⟩ := step_next hstep
  · simp at hchange
  · exact .inl ⟨o, rest, hin⟩
  · obtain ⟨hl, hconf⟩ | ⟨⟨n, rfl⟩, hok⟩ := hcompletion.length_cases
    · simp [hl, hconf] at hchange
    · exact .inr ⟨c, rest, n, hin, hd, hok⟩
  · simp at hchange

/-- What each command leaves in `SIZE` (R24). -/
theorem Completion.size_cases {s t : State} {i : Instr} (h : Completion s i t) :
    t.size = s.size ∨ (∃ n, i = .config n ∧ t.size = 0) ∨ (i = .age ∧ t.size = s.size / 2) ∨
      ∃ h, i = .record h ∧ (t.size = s.size + 1 ∨ t.size = (s.size + 1) / 2) := by
  cases h with
  | config _ _ => exact .inr (.inl ⟨_, rfl, rfl⟩)
  | age _ => exact .inr (.inr (.inl ⟨rfl, rfl⟩))
  | recordCounted _ _ _ => exact .inr (.inr (.inr ⟨_, rfl, .inl rfl⟩))
  | recordAged _ _ _ => exact .inr (.inr (.inr ⟨_, rfl, .inr rfl⟩))
  | _ => exact .inl rfl

/-- Settles O53: `size_cases` for a command, 0 for a reset. -/
theorem sizeHasFourWriters : Obligations.SizeHasFourWriters := by
  intro s t hstep hchange
  obtain rfl | ⟨o, rest, hin, rfl⟩ | ⟨c, rest, i, hin, hd, hcompletion⟩ | ⟨rest, rfl⟩ := step_next hstep
  · exact absurd rfl hchange
  · exact .inl ⟨o, rest, hin, rfl⟩
  · exact .inr ⟨c, rest, i, hin, hd, hcompletion.size_cases.resolve_left hchange⟩
  · exact absurd rfl hchange

/-- The commands that can write the table (R33). -/
theorem Completion.table_cases {s t : State} {i : Instr} (h : Completion s i t) :
    t.table = s.table ∨ (∃ n, i = .config n) ∨ (∃ h, i = .record h) ∨ i = .age ∨ ∃ k d, i = .wrword k d := by
  cases h with
  | config _ _ => exact .inr (.inl ⟨_, rfl⟩)
  | recordCounted _ _ _ => exact .inr (.inr (.inl ⟨_, rfl⟩))
  | recordAged _ _ _ => exact .inr (.inr (.inl ⟨_, rfl⟩))
  | age _ => exact .inr (.inr (.inr (.inl rfl)))
  | wrword _ _ _ => exact .inr (.inr (.inr (.inr ⟨_, _, rfl⟩)))
  | _ => exact .inl rfl

/-- Settles O54: `table_cases` for a command. -/
theorem tableHasFiveWriters : Obligations.TableHasFiveWriters := by
  intro s t hstep hchange
  obtain rfl | ⟨o, rest, hin, -⟩ | ⟨c, rest, i, hin, hd, hcompletion⟩ | ⟨rest, rfl⟩ := step_next hstep
  · exact absurd rfl hchange
  · exact .inl ⟨o, rest, hin⟩
  · exact .inr ⟨c, rest, i, hin, hd, hcompletion.table_cases.resolve_left hchange⟩
  · exact absurd rfl hchange

/-- Settles O55: `serveInput_next`, since a step serves one input or none. -/
theorem stepsKeepTheParameters : Obligations.StepsKeepTheParameters := by
  intro s t hstep
  unfold step at hstep
  split at hstep
  next => exact congrArg State.params (Host.Outcome.next.inj hstep).symm
  next x rest _ =>
    obtain ⟨u, hu, -, hparams⟩ := serveInput_next x (s.withInbox rest)
    obtain rfl := Host.Outcome.next.inj (hstep.symm.trans hu)
    exact hparams

end Sys2Proof.Machine
end

section
/-! Settles O57 (spec/10_state.md R21, R27, spec/93_implementation_defined.md U6, U7). The idea: states that agree inside the
table stay so under each named update, since every word an update reads or writes is inside; so the two states choose the same
branch of every command and end it in states that agree again. -/

namespace Sys2Proof.Machine

/-- The states agree inside the table, and both tables are in canonical form. -/
structure agreeCanonical (s t : State) : Prop where
  inside : agreeInside s t
  left : s.table.wf = true
  right : t.table.wf = true

/-! ### What agreeing states have in common -/

section
variable {s t : State} (a : agreeCanonical s t)
include a

theorem agreeCanonical.params : t.params = s.params := a.inside.params
theorem agreeCanonical.configured : t.configured = s.configured := a.inside.configured
theorem agreeCanonical.log2l : t.log2l = s.log2l := a.inside.log2l
theorem agreeCanonical.size : t.size = s.size := a.inside.size

theorem agreeCanonical.tableLength : t.tableLength = s.tableLength := by
  rw [State.tableLength, State.tableLength, a.log2l]

theorem agreeCanonical.samplingSize : t.samplingSize = s.samplingSize := by
  rw [State.samplingSize, State.samplingSize, a.params, a.tableLength]

theorem agreeCanonical.addrs (h : Hash) : t.addrs h = s.addrs h := by
  rw [State.addrs, State.addrs, a.params, a.log2l]

theorem agreeCanonical.statusWord : t.statusWord = s.statusWord := by
  rw [State.statusWord, State.statusWord, a.configured, a.log2l, a.size]

/-- A counter of a word inside the table. -/
theorem agreeCanonical.counter (hc : s.configured = true) {b : CounterAddr} (hb : b.block < s.tableLength) :
    t.table.counter b = s.table.counter b := by
  rw [Memory.counter, Memory.counter, a.inside.words hc _ hb]

/-- The four counters of a hash are inside the table (R76). -/
theorem agreeCanonical.counter_of_mem (hc : s.configured = true) {h : Hash} {b : CounterAddr} (hb : b ∈ s.addrs h) :
    t.table.counter b = s.table.counter b :=
  a.counter hc (block_lt_of_mem_addrgen hb)

theorem agreeCanonical.estimate (hc : s.configured = true) (h : Hash) : t.estimate h = s.estimate h := by
  rw [State.estimate, State.estimate, minCounter, minCounter, a.addrs]
  refine List.foldl_ext _ _ _ fun f b hb => ?_
  rw [a.counter_of_mem hc hb]

theorem agreeCanonical.recordSucceeds_iff (hc : s.configured = true) (h : Hash) :
    t.recordSucceeds h ↔ s.recordSucceeds h := by
  rw [State.recordSucceeds, State.recordSucceeds, a.addrs]
  refine exists_congr fun b => and_congr_right fun hb => ?_
  rw [a.counter_of_mem hc hb]

/-! ### Each update keeps the agreement -/

theorem agreeCanonical.respond (st : Status) (w : Word) : agreeCanonical (s.respond st w) (t.respond st w) where
  inside := { a.inside with response := rfl }
  left := a.left
  right := a.right

theorem agreeCanonical.withInbox (rest : List HostInput) : agreeCanonical (s.withInbox rest) (t.withInbox rest) where
  inside := { a.inside with inbox := rfl }
  left := a.left
  right := a.right

theorem agreeCanonical.resetEngine : agreeCanonical s.resetEngine t.resetEngine where
  inside := ⟨a.params, rfl, rfl, rfl, a.inside.inbox, rfl, fun _ _ _ => rfl⟩
  left := rfl
  right := rfl

theorem agreeCanonical.configure (k : Nat) : agreeCanonical (s.configure k) (t.configure k) where
  inside := ⟨a.params, rfl, rfl, rfl, a.inside.inbox, a.inside.response, fun _ _ _ => rfl⟩
  left := rfl
  right := rfl

theorem agreeCanonical.writeWord (k : Nat) (d : Word) : agreeCanonical (s.writeWord k d) (t.writeWord k d) where
  inside := { a.inside with
    words := fun hc i hi => by
      rw [State.writeWord_table, State.writeWord_table, Memory.read_write _ _ _ a.left, Memory.read_write _ _ _ a.right,
        a.inside.words hc i hi] }
  left := Memory.wf_write _ _ a.left
  right := Memory.wf_write _ _ a.right

theorem agreeCanonical.agingPass : agreeCanonical s.agingPass t.agingPass where
  inside := { a.inside with
    size := congrArg (· / 2) a.size
    words := fun hc i hi => by
      rw [State.agingPass_table, State.agingPass_table, Memory.read_halveBelow _ _ a.left,
        Memory.read_halveBelow _ _ a.right, a.tableLength, a.inside.words hc i hi] }
  left := Memory.wf_halveBelow _ a.left
  right := Memory.wf_halveBelow _ a.right

theorem agreeCanonical.recorded (h : Hash) : agreeCanonical (s.recorded h) (t.recorded h) where
  inside := { a.inside with
    size := congrArg (· + 1) a.size
    words := fun hc i hi => word_ext fun k hk => by
      have hb : CounterAddr.valid ⟨i, 4 * k⟩ := ⟨k, hk, rfl⟩
      have hleft := State.recorded_counter h a.left hb
      have hright := State.recorded_counter h a.right hb
      rw [a.addrs, a.counter hc hi] at hright
      exact hright.trans hleft.symm }
  left := State.recorded_wf h a.left
  right := State.recorded_wf h a.right

end

/-! ### Each command answers agreeing states alike -/

/-- Where the first result goes on, so does the second, in a state that agrees with the first's. -/
def answersAlike (o o' : Result) : Prop := ∀ s', o = .next s' → ∃ t', o' = .next t' ∧ agreeCanonical s' t'

theorem answersAlike_next {s t : State} (a : agreeCanonical s t) : answersAlike (.next s) (.next t) := by
  intro s' hs
  obtain rfl := Host.Outcome.next.inj hs
  exact ⟨t, rfl, a⟩

theorem answersAlike_raise {s t : State} (a : agreeCanonical s t) (st : Status) :
    answersAlike (raise st s) (raise st t) :=
  answersAlike_next (a.respond st 0)

/-- A check with the same outcome on both sides. -/
theorem answersAlike_ite {p q : Prop} [Decidable p] [Decidable q] {o₁ o₂ u₁ u₂ : Result} (hpq : q ↔ p)
    (hpos : answersAlike o₁ u₁) (hneg : ¬ p → answersAlike o₂ u₂) :
    answersAlike (if p then o₁ else o₂) (if q then u₁ else u₂) := by
  by_cases hp : p
  · rwa [if_pos hp, if_pos (hpq.2 hp)]
  · rw [if_neg hp, if_neg (fun hq => hp (hpq.1 hq))]
    exact hneg hp

section
variable {s t : State} (a : agreeCanonical s t)
include a

/-- A command that checks `CONFIGURED` first (R155). -/
theorem answersAlike_checked {o o' : Result} (h : s.configured = true → answersAlike o o') :
    answersAlike (if s.configured = false then raise .errNotConfigured s else o)
      (if t.configured = false then raise .errNotConfigured t else o') :=
  answersAlike_ite (by rw [a.configured]) (answersAlike_raise a _) fun hc => h (by simpa using hc)

/-- A word command, which checks its index after that (R136). -/
theorem answersAlike_indexed (k : Nat) {o o' : Result} (h : s.configured = true → k < s.tableLength → answersAlike o o') :
    answersAlike
      (if s.configured = false then raise .errNotConfigured s
        else if s.indexInRange k = false then raise .errIndexRange s else o)
      (if t.configured = false then raise .errNotConfigured t
        else if t.indexInRange k = false then raise .errIndexRange t else o') := by
  refine answersAlike_checked a fun hc => answersAlike_ite ?_ (answersAlike_raise a _) fun hk => h hc ?_
  · rw [State.indexInRange, State.indexInRange, a.tableLength]
  · simpa [State.indexInRange] using hk

theorem answersAlike_config (n : Int) : answersAlike (execConfig n s) (execConfig n t) :=
  answersAlike_ite Iff.rfl (answersAlike_raise a _) fun _ =>
    answersAlike_ite (by rw [a.params]) (answersAlike_raise a _) fun _ => answersAlike_next ((a.configure _).respond _ _)

theorem answersAlike_record (hc : s.configured = true) (h : Hash) :
    answersAlike (execRecord h s) (execRecord h t) := by
  have hct : t.configured = true := a.configured.trans hc
  by_cases hs : s.recordSucceeds h
  · rw [execRecord_successful hc hs, execRecord_successful hct ((a.recordSucceeds_iff hc h).2 hs)]
    refine answersAlike_ite ?_ (answersAlike_next ((a.recorded h).agingPass.respond _ _)) fun _ =>
      answersAlike_next ((a.recorded h).respond _ _)
    rw [(a.recorded h).size, a.samplingSize]
  · rw [execRecord_saturated hc hs, execRecord_saturated hct (hs ∘ (a.recordSucceeds_iff hc h).1)]
    exact answersAlike_next (a.respond _ _)

theorem answersAlike_exec (i : Instr) : answersAlike (exec i s) (exec i t) := by
  cases i with
  | config n => exact answersAlike_config a n
  | record h =>
    obtain hc | hc := Bool.eq_false_or_eq_true s.configured
    · exact answersAlike_record a hc h
    · rw [exec, exec, execRecord_unconfigured hc, execRecord_unconfigured (a.configured.trans hc)]
      exact answersAlike_raise a _
  | query h =>
    refine answersAlike_checked a fun hc => ?_
    rw [a.estimate hc]
    exact answersAlike_next (a.respond _ _)
  | has h =>
    refine answersAlike_checked a fun hc => ?_
    rw [a.estimate hc]
    exact answersAlike_next (a.respond _ _)
  | age => exact answersAlike_checked a fun _ => answersAlike_next (a.agingPass.respond _ _)
  | rdword k =>
    refine answersAlike_indexed a k fun hc hk => ?_
    rw [a.inside.words hc k hk]
    exact answersAlike_next (a.respond _ _)
  | wrword k d => exact answersAlike_indexed a k fun _ _ => answersAlike_next ((a.writeWord k d).respond _ _)
  | rdstat =>
    rw [exec, exec, execRdStat, execRdStat, a.statusWord]
    exact answersAlike_next (a.respond _ _)

theorem answersAlike_serveInput (x : HostInput) : answersAlike (serveInput x s) (serveInput x t) := by
  cases x with
  | reset o => exact answersAlike_next a.resetEngine
  | issue c =>
    rw [serveInput, serveInput, serve, serve, a.params]
    cases decode s.params c with
    | instr i => exact answersAlike_exec a i
    | illegal w => exact answersAlike_raise a _

theorem answersAlike_step : answersAlike (step s) (step t) := by
  rw [step, step, a.inside.inbox]
  cases s.inbox with
  | nil => exact answersAlike_next a
  | cons x rest => exact answersAlike_serveInput (a.withInbox rest) x

end

/-- Settles O57: `answersAlike_step`, with its conclusion taken apart. -/
theorem wordsOutsideTheTableAreUnobservable : Obligations.WordsOutsideTheTableAreUnobservable := by
  intro s t s' hs ht hagree hstep
  obtain ⟨t', hstep', hinside, hleft, hright⟩ := answersAlike_step ⟨hagree, hs, ht⟩ s' hstep
  exact ⟨t', hstep', hinside, hleft, hright⟩

end Sys2Proof.Machine
end

section
/-! Settles O19, O22 and O25 (spec/41_record.md R91, R93, R95, R97). The ideas: a successful RECORD ends in the state of its
lanes, or in the aging pass of that state; no lane names a word outside the table; and what the loop does to each counter asks
of its list of addresses only that they differ, so a permutation of the list does the same. -/

namespace Sys2Proof.Machine

/-- Settles O19: below the threshold the next state is that of the lanes. -/
theorem recordRaisesItsCountersByOne : Obligations.RecordRaisesItsCountersByOne := by
  intro s h hi hc hs hne
  exact ⟨_, execRecord_belowThreshold hi hc hs hne, fun i _ hk => State.slotRecorded_recorded hi.canonical i hk,
    State.recorded_size_toNat h hi hc, rfl, rfl, rfl, rfl, rfl⟩

/-- The lanes leave every word at `L` or above: a block index is below `L` (R76). -/
theorem State.recorded_read_outside {s : State} (h : Hash) (hw : s.table.wf = true) {i : Nat}
    (hi : s.tableLength ≤ i) : (s.recorded h).table.read i = s.table.read i := by
  refine word_ext fun k hk => ?_
  have hout : (⟨i, 4 * k⟩ : CounterAddr) ∉ s.addrs h := by
    intro hin
    have hlt : i < s.tableLength := block_lt_of_mem_addrgen hin
    omega
  have hkeep := State.recorded_counter (b := ⟨i, 4 * k⟩) h hw ⟨k, hk, rfl⟩
  exact hkeep.trans (if_neg fun hin => hout hin.1)

/-- The aging pass leaves every word at `L` or above (R105). -/
theorem State.agingPass_read_outside {s : State} (hw : s.table.wf = true) {i : Nat} (hi : s.tableLength ≤ i) :
    s.agingPass.table.read i = s.table.read i := by
  rw [State.agingPass_table, Memory.read_halveBelow _ _ hw, if_neg (Nat.not_lt.2 hi)]

/-- Settles O22: at the threshold the next state is the aging pass of that of the lanes. -/
theorem recordAtTheThresholdAgesOnce : Obligations.RecordAtTheThresholdAgesOnce := by
  intro s h hi hc hs heq
  have hw := State.recorded_wf h hi.canonical
  refine ⟨_, execRecord_atThreshold hi hc hs heq, fun i k hL hk => ⟨(s.recorded h).slot i k, ?_, ?_⟩, fun i hL => ?_, ?_,
    rfl, rfl, rfl, rfl, rfl⟩
  · exact State.slotRecorded_recorded hi.canonical i hk
  · exact State.agingPass_slot hw hL hk
  · exact (State.agingPass_read_outside hw hL).trans (State.recorded_read_outside h hi.canonical hL)
  · rw [State.respond_size, State.agingPass_size_toNat, State.recorded_size_toNat h hi hc, heq]

/-- Lanes in another order write the same table and set the same flag, if no two name one counter. -/
theorem recordLanes_perm {t : Memory} {as bs : List CounterAddr} (hw : t.wf = true) (hp : as.Perm bs)
    (hv : ∀ b ∈ bs, b.valid) (hn : bs.Nodup) : recordLanes t as = recordLanes t bs := by
  obtain ⟨hwa, hca, hfa⟩ := foldl_lane (f := false) hw (fun a ha => hv a (hp.mem_iff.1 ha)) (hp.nodup_iff.2 hn)
  obtain ⟨hwb, hcb, hfb⟩ := foldl_lane (f := false) hw hv hn
  have htable : (recordLanes t as).1 = (recordLanes t bs).1 := by
    refine Memory.ext_counter hwa hwb fun b hb => ?_
    rw [recordLanes, recordLanes, hca b hb, hcb b hb]
    simp only [hp.mem_iff]
  have hflag : (recordLanes t as).2 = (recordLanes t bs).2 := by
    rw [recordLanes, recordLanes, hfa, hfb, hp.any_eq]
  exact Prod.ext htable hflag

/-- Settles O25: the four addresses of a hash name four different counters. -/
theorem laneOrderDoesNotMatter : Obligations.LaneOrderDoesNotMatter :=
  fun _ p l h _ hw hp => recordLanes_perm hw hp (fun _ => valid_of_mem_addrgen) (addrgen_distinct p l h)

end Sys2Proof.Machine
end

section
/-! Settles O30 and O33 (spec/42_aging.md R105, R106, R108, R113). The ideas: AGE is the aging pass, whose law gives every
word; and a word-at-a-time pass over different indices halves each of them once, in whatever order it meets them. -/

namespace Sys2Proof.Machine

/-- Settles O30: the law of the pass, below `L` and from `L` up. -/
theorem ageHalvesTheWholeTable : Obligations.AgeHalvesTheWholeTable := by
  intro s hi hc
  refine ⟨_, execAge_configured hc, fun i hL => ?_, fun i hL => State.agingPass_read_outside hi.canonical hL,
    s.agingPass_size_toNat, rfl, rfl, rfl, rfl, rfl⟩
  exact (Memory.read_halveBelow _ i hi.canonical).trans (if_pos hL)

/-- A pass of one word per step keeps the canonical form. -/
theorem wf_ageInOrder {t : Memory} (is : List Nat) (hw : t.wf = true) : (ageInOrder is t).wf = true := by
  induction is generalizing t with
  | nil => exact hw
  | cons i is ih => exact ih (Memory.wf_write _ _ hw)

/-- A pass of one word per step over different indices halves exactly their words. -/
theorem read_ageInOrder {t : Memory} {is : List Nat} (hw : t.wf = true) (hn : is.Nodup) (j : Nat) :
    (ageInOrder is t).read j = if j ∈ is then halveWord (t.read j) else t.read j := by
  induction is generalizing t with
  | nil => rfl
  | cons i is ih =>
    obtain ⟨hni, hn⟩ := List.nodup_cons.1 hn
    have hrest : (ageInOrder (i :: is) t).read j = _ := ih (Memory.wf_write i (halveWord (t.read i)) hw) hn
    rw [hrest, Memory.read_write _ _ _ hw]
    by_cases hji : j = i
    · subst hji
      simp [hni]
    · simp [hji]

/-- Settles O33: both passes halve the words below `L` and leave the others. -/
theorem agingOrderIsNotObservable : Obligations.AgingOrderIsNotObservable := by
  intro t L is hw hp
  refine Memory.ext (wf_ageInOrder is hw) (Memory.wf_halveBelow L hw) fun j => ?_
  rw [read_ageInOrder hw (hp.nodup_iff.2 List.nodup_range), Memory.read_halveBelow L j hw]
  simp only [hp.mem_iff, List.mem_range]

end Sys2Proof.Machine
end

section
/-! Settles O18, O36, O37, O45 and O47 (spec/43_query.md R115 to R119, spec/44_capacity.md R130, spec/45_debug.md R137, R138).
The ideas: the estimate is 0 exactly when one of the four counters is, and in a new table all are; and what a reading command
completes in differs from the state it ran on by its response alone. -/

namespace Sys2Proof.Machine

/-- The estimate is 0 exactly when one of the four counters is (R115). -/
theorem State.estimate_eq_zero_iff (s : State) (h : Hash) :
    s.estimate h = 0 ↔ ∃ a ∈ s.addrs h, s.table.counter a = 0 := by
  obtain ⟨hlow, ⟨a, ha, hest⟩, -⟩ := s.estimate_spec h
  constructor
  · intro hzero
    exact ⟨a, ha, BitVec.eq_of_toNat_eq (hest.symm.trans hzero)⟩
  · rintro ⟨b, hb, hzero⟩
    have hle := hlow b hb
    rw [hzero] at hle
    exact Nat.le_zero.1 hle

/-- In a table that lists nothing every estimate is 0 (R130). -/
theorem State.estimate_of_empty {s : State} (ht : s.table = []) (h : Hash) : s.estimate h = 0 := by
  obtain ⟨-, ⟨a, ha, -⟩, -⟩ := s.estimate_spec h
  refine (s.estimate_eq_zero_iff h).2 ⟨a, ha, Memory.counter_of_read_zero ?_⟩
  rw [ht]
  rfl

/-- An estimate of 0 makes QUERY answer 0 (R115). -/
theorem execQuery_of_estimate_zero {s : State} {h : Hash} (hc : s.configured = true) (he : s.estimate h = 0) :
    execQuery h s = .next (s.respond .ok 0) := by
  rw [execQuery_configured hc, he]
  rfl

/-- An estimate of 0 makes HAS answer 0 (R117). -/
theorem execHas_of_estimate_zero {s : State} {h : Hash} (hc : s.configured = true) (he : s.estimate h = 0) :
    execHas h s = .next (s.respond .ok 0) := by
  rw [execHas_configured hc, he]
  rfl

/-- Any other estimate makes HAS answer 1 (R117). -/
theorem execHas_of_estimate_ne_zero {s : State} {h : Hash} (hc : s.configured = true) (he : s.estimate h ≠ 0) :
    execHas h s = .next (s.respond .ok 1) := by
  rw [execHas_configured hc, decide_eq_true (Nat.pos_of_ne_zero he)]
  rfl

/-- A CONFIG that completes with OK leaves a configured engine whose table lists nothing (R129). -/
theorem empty_of_execConfig_ok {s t : State} {n : Int} {r : Word} (he : exec (.config n) s = .next t)
    (hr : t.response = some ⟨.ok, r⟩) : t.configured = true ∧ t.table = [] := by
  cases completion_of_exec he with
  | raised _ hst => exact absurd (congrArg Response.status (Option.some.inj hr)) hst
  | config _ _ => exact ⟨rfl, rfl⟩

/-- Settles O18: every estimate is 0 in the table an OK CONFIG leaves. -/
theorem configDiscardsEveryCount : Obligations.ConfigDiscardsEveryCount := by
  intro s t n he hr h
  obtain ⟨hc, hempty⟩ := empty_of_execConfig_ok he hr
  have hzero := State.estimate_of_empty hempty h
  exact ⟨execQuery_of_estimate_zero hc hzero, execHas_of_estimate_zero hc hzero⟩

/-- Settles O36: HAS looks at whether the estimate is 0. -/
theorem hasIsZeroExactlyWhenACounterIs : Obligations.HasIsZeroExactlyWhenACounterIs := by
  intro s h hc
  refine ⟨fun hzero => execHas_of_estimate_zero hc ((s.estimate_eq_zero_iff h).2 hzero), fun hall => ?_⟩
  refine execHas_of_estimate_ne_zero hc fun he => ?_
  obtain ⟨a, ha, hzero⟩ := (s.estimate_eq_zero_iff h).1 he
  exact hall a ha hzero

/-- A reading command changes the response alone (R119). -/
theorem Completion.eq_respond_of_read {s t : State} {i : Instr} (h : Completion s i t)
    (hread : (∃ h, i = .query h) ∨ (∃ h, i = .has h) ∨ (∃ k, i = .rdword k) ∨ i = .rdstat) :
    ∃ st w, t = s.respond st w := by
  cases h with
  | config | recordSaturated | recordCounted | recordAged | age | wrword => simp at hread
  | raised | query | has | rdword | rdstat => exact ⟨_, _, rfl⟩

/-- Settles O37: a response changes no architectural state. -/
theorem readsHaveNoSideEffect : Obligations.ReadsHaveNoSideEffect := by
  intro s i hread
  obtain ⟨t, ht, hcompletion⟩ := exec_completes i s
  obtain ⟨st, w, rfl⟩ := hcompletion.eq_respond_of_read hread
  exact ⟨_, ht, ⟨rfl, rfl, rfl, rfl, rfl⟩, rfl⟩

/-- Settles O45: `execRdWord_inRange`. -/
theorem rdWordReturnsTheWord : Obligations.RdWordReturnsTheWord :=
  fun _ _ hc hi => execRdWord_inRange hc hi

/-- Settles O47: the laws of a read after a write. -/
theorem wrWordWritesOneWord : Obligations.WrWordWritesOneWord :=
  fun _ i d hinv hc hi => ⟨_, execWrWord_inRange hc hi, Memory.read_write_self i d hinv.canonical,
    fun _ hj => Memory.read_write_of_ne d hj, rfl, rfl, rfl, rfl, rfl, rfl⟩

end Sys2Proof.Machine
end

section
/-! Settles O39 and O43 (spec/40_addressing.md R77, R85). The idea: `L` divides 2^32, so the remainder modulo `L` of the folded
product may be taken modulo 2^32 first. -/

namespace Sys2Proof.Machine

/-- Modulo 2^32 the fold adds the two halves of its operand (R77). -/
theorem foldHigh_toNat_mod (m : Word) :
    (foldHigh m).toNat % 2 ^ 32 = ((m.extractLsb' 0 32).toNat + (m.extractLsb' 32 32).toNat) % 2 ^ 32 := by
  rw [foldHigh_toNat, BitVec.extractLsb'_toNat, BitVec.extractLsb'_toNat, Nat.shiftRight_zero,
    Nat.shiftRight_eq_div_pow, Nat.mod_mod_of_dvd _ (by decide : 2 ^ 32 ∣ 2 ^ 64), Nat.add_mod]

/-- Settles O39: the exponent of `L` is below 32. -/
theorem blockHasThe32BitForm : Obligations.BlockHasThe32BitForm := by
  rintro p l h r m rfl
  have hl := l.isLt
  have hdvd : 2 ^ l.toNat ∣ 2 ^ 32 := Nat.pow_dvd_pow 2 (by omega)
  calc block p l h r = (foldHigh (rowProduct p h r)).toNat % 2 ^ l.toNat := block_eq_mod p l h r
    _ = (foldHigh (rowProduct p h r)).toNat % 2 ^ 32 % 2 ^ l.toNat := (Nat.mod_mod_of_dvd _ hdvd).symm
    _ = _ := by rw [foldHigh_toNat_mod, rowProduct]

/-- Settles O43: a closed computation. -/
theorem theWorkedAddressExample : Obligations.TheWorkedAddressExample := by
  unfold Obligations.TheWorkedAddressExample
  decide

end Sys2Proof.Machine
end

section
/-! Settles O7 to O11 and O56 (spec/00_scope.md R9, spec/10_state.md R27, spec/20_memory.md R46, spec/40_addressing.md R83,
spec/70_reset_and_hazards.md R170 to R172). The idea of O56: no meaning looks at the inputs that wait, so serving an input and
replacing what waits behind it commute; the run follows by induction over the inputs. -/

namespace Sys2Proof.Machine

/-- Settles O7: a step serves the command, and serving runs what it decodes to. -/
theorem stepRunsTheDecodedCommand : Obligations.StepRunsTheDecodedCommand :=
  fun _ _ _ _ hin hd => (step_of_issue hin).trans (serve_of_decode hd)

/-- Settles O8: the idle case of `step_cases`. -/
theorem idleEngineHoldsItsState : Obligations.IdleEngineHoldsItsState := by
  intro s hin
  simp [step, hin]

/-- A step with the reset signal waiting resets the state that has taken it (R170). -/
theorem step_of_reset {s : State} {o : Option Command} {rest : List HostInput} (h : s.inbox = .reset o :: rest) :
    step s = .next (s.withInbox rest).resetEngine := by
  simp only [step, h, serveInput]

/-- Settles O9: the fields of `resetEngine`, and any input can be served next. -/
theorem resetSignalGivesTheResetValues : Obligations.ResetSignalGivesTheResetValues := by
  intro s o rest hin
  refine ⟨_, step_of_reset hin, rfl, rfl, rfl, rfl, rfl, rfl, fun x => ?_⟩
  obtain ⟨u, hu, -⟩ := serveInput_next x ((s.withInbox rest).resetEngine.withInbox [])
  exact ⟨u, hu⟩

/-- Settles O10: the status word is 0, and the table commands find the engine unconfigured. -/
theorem stateAfterReset : Obligations.StateAfterReset := by
  intro p
  have hstatus : (State.resetOf p).statusWord = 0 := by simp [State.statusWord, State.resetOf]
  refine ⟨rfl, rfl, rfl, ?_, fun h => execQuery_unconfigured rfl, fun i => execRdWord_unconfigured rfl⟩
  exact congrArg (fun w => Host.Outcome.next ((State.resetOf p).respond .ok w)) hstatus

/-! ### Instantiation -/

/-- Bit 0 of a seed says whether it is odd, for the four rows at once (R83). -/
theorem seedsOdd_iff (p : Params) : p.seedsOdd = true ↔ ∀ r : Row, (p.seed r).toNat % 2 = 1 := by
  have hbit : ∀ w : Word, w.getLsbD 0 = true ↔ w.toNat % 2 = 1 := fun w => by
    rw [BitVec.getLsbD, Nat.testBit_zero, decide_eq_true_iff]
  simp only [Params.seedsOdd, Bool.and_eq_true, hbit, Fin.forall_fin_succ, IsEmpty.forall_iff, and_true, and_assoc]
  rfl

theorem sizesFit_iff (p : Params) :
    p.sizesFit = true ↔ 1 ≤ p.sampleFactor ∧ p.log2LMax ≤ 31 ∧ p.sampleFactor * 2 ^ p.log2LMax ≤ 2 ^ 32 - 1 := by
  simp only [Params.sizesFit, Bool.and_eq_true, decide_eq_true_eq, and_assoc]
  rfl

/-- Settles O11: the two checks in their order. -/
theorem evenSeedsAreRefused : Obligations.EvenSeedsAreRefused := by
  intro p
  refine ⟨?_, fun hodd hfactor hlog hproduct => ?_, fun hodd hout => ?_⟩
  · rintro ⟨r, heven⟩
    have hnot : ¬ p.seedsOdd = true := by
      rw [seedsOdd_iff]
      intro hodd
      exact absurd (heven.symm.trans (hodd r)) (by decide)
    rw [instantiate, if_pos (Bool.eq_false_of_not_eq_true hnot)]
  · rw [instantiate, (seedsOdd_iff p).2 hodd, (sizesFit_iff p).2 ⟨hfactor, hlog, hproduct⟩]
    rfl
  · have hnot : ¬ p.sizesFit = true := by
      rw [sizesFit_iff]
      rintro ⟨hfactor, hlog, hproduct⟩
      omega
    rw [instantiate, (seedsOdd_iff p).2 hodd, Bool.eq_false_of_not_eq_true hnot]
    rfl

/-! ### Inputs that wait -/

/-- The result with the inputs `ys` waiting in the state it goes on in. -/
def Result.withInbox (ys : List HostInput) : Result → Result
  | .next t => .next (t.withInbox ys)
  | .fault r => .fault r
  | .refused r => .refused r

/-- No meaning looks at the inbox: each check is the same, and each end differs in the inbox alone (R46, R177). -/
theorem exec_withInbox (i : Instr) (s : State) (ys : List HostInput) :
    exec i (s.withInbox ys) = Result.withInbox ys (exec i s) := by
  cases i with
  | rdstat => rfl
  | _ =>
    simp only [exec, execConfig, execRecord, countSample, execQuery, execHas, execAge, execRdWord, execWrWord,
      apply_ite (Result.withInbox ys)]
    rfl

theorem serveInput_withInbox (x : HostInput) (s : State) (ys : List HostInput) :
    serveInput x (s.withInbox ys) = Result.withInbox ys (serveInput x s) := by
  cases x with
  | reset o => rfl
  | issue c =>
    cases hd : decode s.params c with
    | instr i => simp only [serveInput, serve, State.withInbox_params, hd, exec_withInbox]
    | illegal w =>
      simp only [serveInput, serve, State.withInbox_params, hd]
      rfl

/-- A run of one more step, where the first goes on (the host's `run`). -/
theorem core_run_succ {s u : State} (k : Nat) (h : step s = .next u) : core.run (k + 1) s = core.run k u := by
  have hcore : core.step s = .next u := h
  simp only [Host.Core.run, hcore]

theorem State.withInbox_of_inbox {s : State} {xs : List HostInput} (h : s.inbox = xs) : s.withInbox xs = s := by
  subst h
  rfl

/-- Serving the inputs `xs` gives the same state whatever waits behind them (R46). -/
theorem run_withInbox_append {u : State} (xs ys : List HostInput) (s : State)
    (h : core.run xs.length (s.withInbox xs) = .next u) :
    u.inbox = [] ∧ core.run xs.length (s.withInbox (xs ++ ys)) = .next (u.withInbox ys) := by
  induction xs generalizing s with
  | nil =>
    obtain rfl := Host.Outcome.next.inj h
    exact ⟨rfl, rfl⟩
  | cons x xs ih =>
    obtain ⟨v, hv, hin, -⟩ := serveInput_next x (s.withInbox xs)
    have hfirst : step (s.withInbox (x :: xs)) = .next v := hv
    have hfirst' : step (s.withInbox (x :: (xs ++ ys))) = .next (v.withInbox (xs ++ ys)) := by
      have hcommute := serveInput_withInbox x (s.withInbox xs) (xs ++ ys)
      rw [hv] at hcommute
      exact hcommute
    have hrest := (core_run_succ xs.length hfirst).symm.trans h
    rw [← State.withInbox_of_inbox hin] at hrest
    obtain ⟨hempty, hrun⟩ := ih v hrest
    exact ⟨hempty, (core_run_succ xs.length hfirst').trans hrun⟩

/-- Settles O56. -/
theorem laterInputsDoNotReachEarlierOnes : Obligations.LaterInputsDoNotReachEarlierOnes :=
  fun s _ xs ys h => run_withInbox_append xs ys s h

end Sys2Proof.Machine
end

section
/-! Settles O58 and O59 (spec/30_encoding.md R68, R69). The ideas: a line assembles to the encoding of its one command, whose
fields are those of the command and which decodes back to it (O1); and it assembles exactly when each of its operands is in its
range. -/

namespace Sys2Proof.Machine

/-! ### Operands -/

/-- An operand is read as its value exactly when it fits its field (R68). -/
theorem unsignedOperand_natCast {width v : Nat} (h : v < 2 ^ width) : unsignedOperand width (v : Int) = some v := by
  have hfits : (v : Int) < 2 ^ width := by exact_mod_cast h
  simp [unsignedOperand, hfits]

theorem unsignedOperand_ne_none_iff (width : Nat) (v : Int) :
    unsignedOperand width v ≠ none ↔ 0 ≤ v ∧ v ≤ 2 ^ width - 1 := by
  rw [Int.le_sub_one_iff]
  simp [unsignedOperand]

theorem capacityOperand_of_range {n : Int} (hlow : -2 ^ 31 ≤ n) (hhigh : n ≤ 2 ^ 31 - 1) :
    capacityFits n = true ∧ capacityOperand n = some n := by
  have hfits : capacityFits n = true := by
    simp only [capacityFits, Bool.and_eq_true, decide_eq_true_eq]
    omega
  exact ⟨hfits, if_pos hfits⟩

theorem capacityOperand_ne_none_iff (n : Int) : capacityOperand n ≠ none ↔ -2 ^ 31 ≤ n ∧ n ≤ 2 ^ 31 - 1 := by
  simp only [capacityOperand, capacityFits, ne_eq, ite_eq_right_iff, reduceCtorEq, imp_false, not_not, Bool.and_eq_true,
    decide_eq_true_eq]
  omega

/-! ### Lines -/

section
variable {a : AsmLine} {i : Instr}

theorem assemble_of_instr (h : a.instr = some i) : a.assemble = some (encode i) := by
  rw [AsmLine.assemble, h, Option.map_some]

/-- A line assembles exactly when its numbers are in range (R68). -/
theorem assemble_ne_none_iff : a.assemble ≠ none ↔ a.instr ≠ none := by
  rw [AsmLine.assemble, ne_eq, ne_eq, Option.map_eq_none_iff]

/-- The fields of an encoded command (R56, R68). -/
theorem hasFields_encode (i : Instr) {arg data : Int} (harg : (i.argument.toNat : Int) = arg)
    (hdata : (i.dataOperand.toNat : Int) = data) : hasFields (encode i) i.opcode arg data where
  opc := opc_commandWord _ _ _
  arg := by rw [encode, arg_commandWord, harg]
  data := hdata
  rsv := rsv_commandWord _ _ _

/-- The row of a sketch line: its word has the command's fields and decodes to the command on every instance. -/
theorem assembled_sketch_row (h : a.instr = some i) {arg data : Int} (harg : (i.argument.toNat : Int) = arg)
    (hdata : (i.dataOperand.toNat : Int) = data) (hwf : ∀ p, i.wf p = true) :
    ∃ c, a.assemble = some c ∧ hasFields c i.opcode arg data ∧ ∀ p, decode p c = .instr i :=
  ⟨encode i, assemble_of_instr h, hasFields_encode i harg hdata, fun p => decode_encode (hwf p)⟩

/-- The row of a debug line, which decodes on the instances with the debug commands (R65). -/
theorem assembled_debug_row (h : a.instr = some i) {arg data : Int} (harg : (i.argument.toNat : Int) = arg)
    (hdata : (i.dataOperand.toNat : Int) = data) (hwf : ∀ p : Params, p.debugCmds = true → i.wf p = true) :
    ∃ c, a.assemble = some c ∧ hasFields c i.opcode arg data ∧
      ∀ p : Params, p.debugCmds = true → decode p c = .instr i :=
  ⟨encode i, assemble_of_instr h, hasFields_encode i harg hdata, fun p hp => decode_encode (hwf p hp)⟩

end

/-- The argument of a capacity (R58, R68). -/
theorem argument_config (n : Int) : ((Instr.config n).argument.toNat : Int) = n % 2 ^ 32 := by
  rw [Instr.argument, BitVec.toNat_ofInt]
  omega

/-- A number that fits a field stands whole in it. -/
theorem toNat_ofNat_cast {width v : Nat} (h : v < 2 ^ width) : ((BitVec.ofNat width v).toNat : Int) = v := by
  rw [BitVec.toNat_ofNat, Nat.mod_eq_of_lt h]

theorem hashOperand_natCast {v : Nat} (h : v < 2 ^ 32) : hashOperand (v : Int) = some (BitVec.ofInt 32 v) := by
  rw [hashOperand, unsignedOperand_natCast h, BitVec.ofInt_natCast, Option.map_some]

/-- The argument of a hash (R58, R68). -/
theorem toNat_ofInt_hash {v : Nat} (h : v < 2 ^ 32) : ((BitVec.ofInt 32 (v : Int)).toNat : Int) = v := by
  rw [BitVec.ofInt_natCast, toNat_ofNat_cast h]

theorem indexFits_of_lt {v : Nat} (h : v < 2 ^ 32) : indexFits v = true := by
  simp only [indexFits, decide_eq_true_eq]
  omega

theorem instr_wrword {i d : Int} {k v : Nat} (hi : unsignedOperand 32 i = some k) (hd : unsignedOperand 64 d = some v) :
    (AsmLine.wrword i d).instr = some (.wrword k (BitVec.ofNat 64 v)) := by
  rw [AsmLine.instr, hi, hd]

/-- Settles O58: one row lemma per line, on operands that fit their fields. -/
theorem assembledLinesDecodeToTheirCommand : Obligations.AssembledLinesDecodeToTheirCommand := by
  refine ⟨fun n hlow hhigh => ?_, fun h hlow hhigh => ?_, ?_, fun i hlow hhigh => ?_, ?_⟩
  · obtain ⟨hfits, hop⟩ := capacityOperand_of_range hlow hhigh
    exact assembled_sketch_row (i := .config n) (by simp [AsmLine.instr, hop]) (argument_config n) rfl fun _ => hfits
  · obtain ⟨v, rfl⟩ := Int.eq_ofNat_of_zero_le hlow
    have hv : v < 2 ^ 32 := by omega
    have hop := hashOperand_natCast hv
    have harg := toNat_ofInt_hash hv
    exact ⟨assembled_sketch_row (i := .record _) (by simp [AsmLine.instr, hop]) harg rfl fun _ => rfl,
      assembled_sketch_row (i := .query _) (by simp [AsmLine.instr, hop]) harg rfl fun _ => rfl,
      assembled_sketch_row (i := .has _) (by simp [AsmLine.instr, hop]) harg rfl fun _ => rfl⟩
  · exact assembled_debug_row (i := .age) rfl rfl rfl fun _ hp => hp
  · obtain ⟨v, rfl⟩ := Int.eq_ofNat_of_zero_le hlow
    have hv : v < 2 ^ 32 := by omega
    have hop := unsignedOperand_natCast hv
    have harg := toNat_ofNat_cast hv
    refine ⟨assembled_debug_row (i := .rdword v) (by simp [AsmLine.instr, hop]) harg rfl fun _ hp =>
      Bool.and_eq_true_iff.2 ⟨hp, indexFits_of_lt hv⟩, fun d hdlow hdhigh => ?_⟩
    obtain ⟨e, rfl⟩ := Int.eq_ofNat_of_zero_le hdlow
    have he : e < 2 ^ 64 := by omega
    rw [BitVec.ofInt_natCast]
    exact assembled_debug_row (instr_wrword hop (unsignedOperand_natCast he)) harg (toNat_ofNat_cast he) fun _ hp =>
      Bool.and_eq_true_iff.2 ⟨hp, indexFits_of_lt hv⟩
  · exact assembled_debug_row (i := .rdstat) rfl rfl rfl fun _ hp => hp

/-- A line with one operand assembles exactly when its operand is in range. -/
theorem assemble_map_ne_none_iff {a : AsmLine} {α : Type} {o : Option α} {mk : α → Instr} (h : a.instr = o.map mk) :
    a.assemble ≠ none ↔ o ≠ none := by
  rw [assemble_ne_none_iff, h, ne_eq, Option.map_eq_none_iff]

theorem assemble_config_ne_none_iff (n : Int) : (AsmLine.config n).assemble ≠ none ↔ -2 ^ 31 ≤ n ∧ n ≤ 2 ^ 31 - 1 :=
  (assemble_map_ne_none_iff rfl).trans (capacityOperand_ne_none_iff n)

/-- A line with one hash. -/
theorem assemble_hash_ne_none_iff {a : AsmLine} {h : Int} {mk : Hash → Instr} (ha : a.instr = (hashOperand h).map mk) :
    a.assemble ≠ none ↔ 0 ≤ h ∧ h ≤ 2 ^ 32 - 1 := by
  rw [assemble_map_ne_none_iff ha, hashOperand, ne_eq, Option.map_eq_none_iff]
  exact unsignedOperand_ne_none_iff 32 h

theorem assemble_wrword_ne_none_iff (i d : Int) : (AsmLine.wrword i d).assemble ≠ none ↔
    (0 ≤ i ∧ i ≤ 2 ^ 32 - 1) ∧ (0 ≤ d ∧ d ≤ 2 ^ 64 - 1) := by
  rw [assemble_ne_none_iff, ← unsignedOperand_ne_none_iff 32 i, ← unsignedOperand_ne_none_iff 64 d, AsmLine.instr]
  cases unsignedOperand 32 i with
  | none => simp
  | some k =>
    cases unsignedOperand 64 d with
    | none => simp
    | some v => simp

/-- Settles O59: each line by its operands; a pseudo-instruction and its command are one `instr`. -/
theorem assemblerRangesAndPseudos : Obligations.AssemblerRangesAndPseudos :=
  ⟨assemble_config_ne_none_iff, fun _ => assemble_hash_ne_none_iff rfl, fun _ => assemble_hash_ne_none_iff rfl,
    fun _ => assemble_hash_ne_none_iff rfl,
    fun i => (assemble_map_ne_none_iff rfl).trans (unsignedOperand_ne_none_iff 32 i), assemble_wrword_ne_none_iff,
    fun _ => ⟨rfl, rfl, rfl, rfl⟩⟩

end Sys2Proof.Machine
end

section
/-! Settles O60 (spec/20_memory.md R43). The idea: reading back `n` consecutive bytes of a word gives the word's bits from the
first byte on, `8n` of them; for eight bytes from byte 0 these are all. -/

namespace Sys2Proof.Machine

/-- The bits that `n` consecutive bytes of a word carry, from byte `j` on. -/
theorem ofLittleBytes_getLsbD (w : Word) (n j i : Nat) (hi : i < 64) :
    (ofLittleBytes ((List.range' j n).map fun k => w.extractLsb' (8 * k) 8)).getLsbD i =
      (decide (i < 8 * n) && w.getLsbD (8 * j + i)) := by
  induction n generalizing i j with
  | zero => simp [ofLittleBytes]
  | succ n ih =>
    rw [List.range'_succ, List.map_cons, ofLittleBytes, BitVec.getLsbD_or, BitVec.getLsbD_shiftLeft,
      BitVec.getLsbD_setWidth, BitVec.getLsbD_extractLsb']
    by_cases hbyte : i < 8
    · simp [hi, hbyte, show i < 8 * (n + 1) by omega]
    · rw [ih (j + 1) (i - 8) (by omega), show 8 * (j + 1) + (i - 8) = 8 * j + i by omega]
      simp [hi, hbyte, show i - 8 < 8 * n ↔ i < 8 * (n + 1) by omega]

/-- The eight little-endian bytes of a word read back as the word. -/
theorem ofLittleBytes_busBytes (w : Word) : ofLittleBytes (busBytes .littleEndian w) = w := by
  refine BitVec.eq_of_getLsbD_eq fun i hi => ?_
  have hbits := ofLittleBytes_getLsbD w 8 0 i hi
  rw [← List.range_eq_range', decide_eq_true (by omega), Bool.true_and, Nat.mul_zero, Nat.zero_add] at hbits
  exact hbits

theorem busBytes_length (o : ByteOrder) (w : Word) : (busBytes o w).length = 8 := by
  cases o <;> rfl

theorem busBytes_bigEndian (w : Word) : busBytes .bigEndian w = (busBytes .littleEndian w).reverse := rfl

/-- A field's bytes read back as the field, in either order. -/
theorem ofBusBytes_busBytes (o : ByteOrder) (w : Word) : ofBusBytes o (busBytes o w) = some w := by
  unfold ofBusBytes
  rw [if_pos (busBytes_length o w)]
  cases o with
  | littleEndian => exact congrArg some (ofLittleBytes_busBytes w)
  | bigEndian =>
    dsimp only
    rw [busBytes_bigEndian, List.reverse_reverse, ofLittleBytes_busBytes]

/-- Settles O60: `ofBusBytes_busBytes`, and byte `k` is the `k`-th of the mapped range. -/
theorem busBytesCarryTheWord : Obligations.BusBytesCarryTheWord := by
  refine fun o w => ⟨busBytes_length o w, ofBusBytes_busBytes o w, busBytes_bigEndian w, fun k hk => ?_⟩
  rw [busBytes, List.getElem?_map, List.getElem?_range hk, Option.map_some]

end Sys2Proof.Machine
end
